-- ==== Sys2Proof/Word.lean ====
section
/-! DEFINITION. The machine's word types: bytes, 16-bit words, and the index of a general register. -/

namespace Sys2Proof

/-- An 8-bit value: a general register, a timer, a memory byte, an immediate NN (10_state.md R21, R26, R31). -/
abbrev Byte := BitVec 8

/-- A 16-bit value: an instruction word, `pc`, `I`, the keypad mask (10_state.md R23, R24, R30; 30_encoding.md R80). -/
abbrev Word := BitVec 16

/-- The index of a general register V0..VF, 0 to 15 (10_state.md R21). -/
abbrev Reg := Fin 16

/-- VF, the register that doubles as the flag (10_state.md R22). -/
abbrev VF : Reg := 15

end Sys2Proof
end

