-- ==== Sys2Proof/Machine/Flags.lean ====
section
/-! DEFINITION. Every flag computation of the instruction set (10_state.md R22): the value VF receives, exactly 0 or 1. -/

namespace Sys2Proof.Machine

/-- `bit(b)` of 00_scope.md table T-R9, as the 8-bit value VF receives (10_state.md R22). -/
def bit (b : Bool) : Byte := if b then 1 else 0

/-- 8XY4: the carry, `a + b > 255` (41_alu.md R128). -/
def carryFlag (a b : Byte) : Byte := bit (decide (a.toNat + b.toNat > 255))

/-- 8XY5 and 8XY7: "no borrow" of `a − b`, `a ≥ b` (41_alu.md R129, R131). -/
def noBorrowFlag (a b : Byte) : Byte := bit (decide (a.toNat ≥ b.toNat))

/-- 8XY6: the bit shifted out at the bottom (41_alu.md R130). -/
def shiftOutLow (a : Byte) : Byte := bit (a.getLsbD 0)

/-- 8XYE: the bit shifted out at the top (41_alu.md R132). -/
def shiftOutHigh (a : Byte) : Byte := bit (a.getLsbD 7)

/-- FX1E with I_OVF_FLAG on: the unreduced sum exceeds 0x0FFF (42_index_and_memory.md R141; log 17). -/
def indexOverflow (i : Word) (a : Byte) : Byte := bit (decide (i.toNat + a.toNat > 0x0FFF))

/-- DXYN: the collision flag (43_display.md R155). -/
def collisionFlag (c : Bool) : Byte := bit c

end Sys2Proof.Machine
end

