-- ==== Sys2Proof/Syntax.lean ====
section
/-! DEFINITION. The instruction set as syntax: one constructor for each of the 34 rows of spec/opcode_table.json
(30_encoding.md table T-R84). Registers are indices 0..15, NN a byte, NNN twelve bits, N a count of rows. -/

namespace Sys2Proof

/-- The 34 instructions. The field Y of `shr` and `shl` is kept even where SHIFT_SRC ignores it (R89). -/
inductive Instr where
  /-- 00E0, clear the display. -/
  | cls
  /-- 00EE, return from subroutine. -/
  | ret
  /-- 1NNN, jump. -/
  | jp (nnn : BitVec 12)
  /-- 2NNN, call subroutine. -/
  | call (nnn : BitVec 12)
  /-- 3XNN, skip if VX = NN. -/
  | seImm (x : Reg) (nn : Byte)
  /-- 4XNN, skip if VX ≠ NN. -/
  | sneImm (x : Reg) (nn : Byte)
  /-- 5XY0, skip if VX = VY. -/
  | seReg (x y : Reg)
  /-- 6XNN, load immediate. -/
  | ldImm (x : Reg) (nn : Byte)
  /-- 7XNN, add immediate, no flag. -/
  | addImm (x : Reg) (nn : Byte)
  /-- 8XY0, copy VY to VX. -/
  | ldReg (x y : Reg)
  /-- 8XY1, bitwise or. -/
  | orReg (x y : Reg)
  /-- 8XY2, bitwise and. -/
  | andReg (x y : Reg)
  /-- 8XY3, bitwise exclusive or. -/
  | xorReg (x y : Reg)
  /-- 8XY4, add with carry flag. -/
  | addReg (x y : Reg)
  /-- 8XY5, VX minus VY with no-borrow flag. -/
  | sub (x y : Reg)
  /-- 8XY6, shift right by one. -/
  | shr (x y : Reg)
  /-- 8XY7, VY minus VX with no-borrow flag. -/
  | subn (x y : Reg)
  /-- 8XYE, shift left by one. -/
  | shl (x y : Reg)
  /-- 9XY0, skip if VX ≠ VY. -/
  | sneReg (x y : Reg)
  /-- ANNN, load the index register. -/
  | ldI (nnn : BitVec 12)
  /-- BNNN, jump with offset. -/
  | jpOff (nnn : BitVec 12)
  /-- CXNN, masked random byte. -/
  | rnd (x : Reg) (nn : Byte)
  /-- DXYN, draw an N-row sprite at (VX, VY). -/
  | drw (x y : Reg) (n : Nat)
  /-- EX9E, skip if the key VX is pressed. -/
  | skp (x : Reg)
  /-- EXA1, skip if the key VX is not pressed. -/
  | sknp (x : Reg)
  /-- FX07, read the delay timer. -/
  | ldVxDt (x : Reg)
  /-- FX0A, wait for a key. -/
  | ldVxK (x : Reg)
  /-- FX15, set the delay timer. -/
  | ldDtVx (x : Reg)
  /-- FX18, set the sound timer. -/
  | ldStVx (x : Reg)
  /-- FX1E, add VX to the index register. -/
  | addI (x : Reg)
  /-- FX29, point the index register at a glyph. -/
  | ldF (x : Reg)
  /-- FX33, store the decimal digits of VX. -/
  | ldB (x : Reg)
  /-- FX55, store V0..VX. -/
  | stRegs (x : Reg)
  /-- FX65, load V0..VX. -/
  | ldRegs (x : Reg)
deriving DecidableEq, Repr

end Sys2Proof
end

