-- ==== Sys2Proof/WellFormed.lean ====
section
/-! DEFINITION. Which terms of `Instr` are instructions of the machine. The types of the fields rule out every
other bad operand (a register above 15, an immediate that does not fit); the one check left is the row count of DXYN. -/

namespace Sys2Proof

/-- R83, R152: the row count N of DXYN is 0..15. Every other field is bounded by its type. -/
def Instr.wf : Instr → Bool
  | .drw _ _ n => decide (n < 16)
  | .cls | .ret | .jp _ | .call _ | .seImm _ _ | .sneImm _ _ | .seReg _ _ | .ldImm _ _ | .addImm _ _ => true
  | .ldReg _ _ | .orReg _ _ | .andReg _ _ | .xorReg _ _ | .addReg _ _ | .sub _ _ | .shr _ _ | .subn _ _ => true
  | .shl _ _ | .sneReg _ _ | .ldI _ | .jpOff _ | .rnd _ _ | .skp _ | .sknp _ | .ldVxDt _ | .ldVxK _ => true
  | .ldDtVx _ | .ldStVx _ | .addI _ | .ldF _ | .ldB _ | .stRegs _ | .ldRegs _ => true

/-- `i` is an instruction of the machine. -/
abbrev Instr.WellFormed (i : Instr) : Prop := i.wf = true

end Sys2Proof
end

