-- ==== Sys2Proof/Decode.lean ====
section
/-! DEFINITION. Instruction encoding (30_encoding.md): the fields of a word, the decoder (R85), total on any bytes and
rejecting by name, the encoder from the same table, and the opcode table's masks (T-R84). -/

namespace Sys2Proof

/-- FAM, bits 15:12 (R81). -/
def famOf (w : Word) : BitVec 4 := w.extractLsb' 12 4

/-- X, bits 11:8, as a register index (R81, R83). -/
def xOf (w : Word) : Reg := (w.extractLsb' 8 4).toFin

/-- Y, bits 7:4, as a register index (R81, R83). -/
def yOf (w : Word) : Reg := (w.extractLsb' 4 4).toFin

/-- N, bits 3:0 (R81). -/
def nOf (w : Word) : BitVec 4 := w.extractLsb' 0 4

/-- NN, bits 7:0 (R81). -/
def nnOf (w : Word) : Byte := w.extractLsb' 0 8

/-- NNN, bits 11:0 (R81). -/
def nnnOf (w : Word) : BitVec 12 := w.extractLsb' 0 12

/-- Why bytes are no instruction: R86's families of illegal words, and fewer than two bytes. -/
inductive DecodeError where
  /-- fewer than two bytes were given -/
  | truncated
  /-- 0NNN other than 00E0 and 00EE -/
  | family0
  /-- 5XYN with N ≠ 0 -/
  | family5
  /-- 8XYN with N in 8..D or F -/
  | family8
  /-- 9XYN with N ≠ 0 -/
  | family9
  /-- EXNN with NN neither 9E nor A1 -/
  | familyE
  /-- FXNN with NN outside the nine listed -/
  | familyF
deriving DecidableEq, Repr

/-- Family 8, selected on N (R85). -/
def decodeAlu (w : Word) : Except DecodeError Instr :=
  let x := xOf w
  let y := yOf w
  match nOf w with
  | 0x0#4 => .ok (.ldReg x y)
  | 0x1#4 => .ok (.orReg x y)
  | 0x2#4 => .ok (.andReg x y)
  | 0x3#4 => .ok (.xorReg x y)
  | 0x4#4 => .ok (.addReg x y)
  | 0x5#4 => .ok (.sub x y)
  | 0x6#4 => .ok (.shr x y)
  | 0x7#4 => .ok (.subn x y)
  | 0xE#4 => .ok (.shl x y)
  | _ => .error .family8

/-- Family E, selected on NN (R85). -/
def decodeKey (w : Word) : Except DecodeError Instr :=
  match nnOf w with
  | 0x9E#8 => .ok (.skp (xOf w))
  | 0xA1#8 => .ok (.sknp (xOf w))
  | _ => .error .familyE

/-- Family F, selected on NN (R85). -/
def decodeMisc (w : Word) : Except DecodeError Instr :=
  let x := xOf w
  match nnOf w with
  | 0x07#8 => .ok (.ldVxDt x)
  | 0x0A#8 => .ok (.ldVxK x)
  | 0x15#8 => .ok (.ldDtVx x)
  | 0x18#8 => .ok (.ldStVx x)
  | 0x1E#8 => .ok (.addI x)
  | 0x29#8 => .ok (.ldF x)
  | 0x33#8 => .ok (.ldB x)
  | 0x55#8 => .ok (.stRegs x)
  | 0x65#8 => .ok (.ldRegs x)
  | _ => .error .familyF

/-- The decoding procedure of R85, total on all 65,536 words. -/
def decodeWord (w : Word) : Except DecodeError Instr :=
  match famOf w with
  | 0x0#4 => if w = 0x00E0 then .ok .cls else if w = 0x00EE then .ok .ret else .error .family0
  | 0x1#4 => .ok (.jp (nnnOf w))
  | 0x2#4 => .ok (.call (nnnOf w))
  | 0x3#4 => .ok (.seImm (xOf w) (nnOf w))
  | 0x4#4 => .ok (.sneImm (xOf w) (nnOf w))
  | 0x5#4 => if nOf w = 0 then .ok (.seReg (xOf w) (yOf w)) else .error .family5
  | 0x6#4 => .ok (.ldImm (xOf w) (nnOf w))
  | 0x7#4 => .ok (.addImm (xOf w) (nnOf w))
  | 0x8#4 => decodeAlu w
  | 0x9#4 => if nOf w = 0 then .ok (.sneReg (xOf w) (yOf w)) else .error .family9
  | 0xA#4 => .ok (.ldI (nnnOf w))
  | 0xB#4 => .ok (.jpOff (nnnOf w))
  | 0xC#4 => .ok (.rnd (xOf w) (nnOf w))
  | 0xD#4 => .ok (.drw (xOf w) (yOf w) (nOf w).toNat)
  | 0xE#4 => decodeKey w
  | _ => decodeMisc w

/-- The word of two bytes as the fetch reads them: the byte at the lower address is bits 15:8 (20_memory.md R53). -/
def wordOf (hi lo : Byte) : Word := hi ++ lo

/-- The byte of a word at the lower address (20_memory.md R53). -/
def hiByte (w : Word) : Byte := w.extractLsb' 8 8

/-- The byte of a word at the higher address (20_memory.md R53). -/
def loByte (w : Word) : Byte := w.extractLsb' 0 8

/-- Decode the instruction at the head of a list of bytes, and the bytes after it. -/
def decodeBytes : List Byte → Except DecodeError (Instr × List Byte)
  | hi :: lo :: rest =>
    match decodeWord (wordOf hi lo) with
    | .ok i => .ok (i, rest)
    | .error e => .error e
  | _ => .error .truncated

/-- Format NNN of table T-R82. -/
def packNNN (fam : BitVec 4) (nnn : BitVec 12) : Word := fam ++ nnn

/-- Format XNN of table T-R82, and with a sub-opcode in NN format XSS. -/
def packXNN (fam : BitVec 4) (x : Reg) (nn : Byte) : Word := fam ++ (BitVec.ofFin (w := 4) x ++ nn)

/-- Format XYN of table T-R82, and with a sub-opcode in N format XYS. -/
def packXYN (fam : BitVec 4) (x y : Reg) (n : BitVec 4) : Word :=
  fam ++ (BitVec.ofFin (w := 4) x ++ (BitVec.ofFin (w := 4) y ++ n))

/-- The word of an instruction, row by row of table T-R84. -/
def encode : Instr → Word
  | .cls => 0x00E0
  | .ret => 0x00EE
  | .jp nnn => packNNN 0x1 nnn
  | .call nnn => packNNN 0x2 nnn
  | .seImm x nn => packXNN 0x3 x nn
  | .sneImm x nn => packXNN 0x4 x nn
  | .seReg x y => packXYN 0x5 x y 0x0
  | .ldImm x nn => packXNN 0x6 x nn
  | .addImm x nn => packXNN 0x7 x nn
  | .ldReg x y => packXYN 0x8 x y 0x0
  | .orReg x y => packXYN 0x8 x y 0x1
  | .andReg x y => packXYN 0x8 x y 0x2
  | .xorReg x y => packXYN 0x8 x y 0x3
  | .addReg x y => packXYN 0x8 x y 0x4
  | .sub x y => packXYN 0x8 x y 0x5
  | .shr x y => packXYN 0x8 x y 0x6
  | .subn x y => packXYN 0x8 x y 0x7
  | .shl x y => packXYN 0x8 x y 0xE
  | .sneReg x y => packXYN 0x9 x y 0x0
  | .ldI nnn => packNNN 0xA nnn
  | .jpOff nnn => packNNN 0xB nnn
  | .rnd x nn => packXNN 0xC x nn
  | .drw x y n => packXYN 0xD x y (BitVec.ofNat 4 n)
  | .skp x => packXNN 0xE x 0x9E
  | .sknp x => packXNN 0xE x 0xA1
  | .ldVxDt x => packXNN 0xF x 0x07
  | .ldVxK x => packXNN 0xF x 0x0A
  | .ldDtVx x => packXNN 0xF x 0x15
  | .ldStVx x => packXNN 0xF x 0x18
  | .addI x => packXNN 0xF x 0x1E
  | .ldF x => packXNN 0xF x 0x29
  | .ldB x => packXNN 0xF x 0x33
  | .stRegs x => packXNN 0xF x 0x55
  | .ldRegs x => packXNN 0xF x 0x65

/-- The two bytes of an instruction as they lie in memory. -/
def encodeBytes (i : Instr) : List Byte := [hiByte (encode i), loByte (encode i)]

/-- A row of table T-R84: the word `w` selects it when `w &&& mask = match`. -/
structure OpcodeRow where
  mask  : Word
  value : Word
deriving DecidableEq, Repr

/-- The row of table T-R84 an instruction belongs to, with the table's own numbers. -/
def Instr.row : Instr → OpcodeRow
  | .cls => ⟨0xFFFF, 0x00E0⟩
  | .ret => ⟨0xFFFF, 0x00EE⟩
  | .jp _ => ⟨0xF000, 0x1000⟩
  | .call _ => ⟨0xF000, 0x2000⟩
  | .seImm _ _ => ⟨0xF000, 0x3000⟩
  | .sneImm _ _ => ⟨0xF000, 0x4000⟩
  | .seReg _ _ => ⟨0xF00F, 0x5000⟩
  | .ldImm _ _ => ⟨0xF000, 0x6000⟩
  | .addImm _ _ => ⟨0xF000, 0x7000⟩
  | .ldReg _ _ => ⟨0xF00F, 0x8000⟩
  | .orReg _ _ => ⟨0xF00F, 0x8001⟩
  | .andReg _ _ => ⟨0xF00F, 0x8002⟩
  | .xorReg _ _ => ⟨0xF00F, 0x8003⟩
  | .addReg _ _ => ⟨0xF00F, 0x8004⟩
  | .sub _ _ => ⟨0xF00F, 0x8005⟩
  | .shr _ _ => ⟨0xF00F, 0x8006⟩
  | .subn _ _ => ⟨0xF00F, 0x8007⟩
  | .shl _ _ => ⟨0xF00F, 0x800E⟩
  | .sneReg _ _ => ⟨0xF00F, 0x9000⟩
  | .ldI _ => ⟨0xF000, 0xA000⟩
  | .jpOff _ => ⟨0xF000, 0xB000⟩
  | .rnd _ _ => ⟨0xF000, 0xC000⟩
  | .drw _ _ _ => ⟨0xF000, 0xD000⟩
  | .skp _ => ⟨0xF0FF, 0xE09E⟩
  | .sknp _ => ⟨0xF0FF, 0xE0A1⟩
  | .ldVxDt _ => ⟨0xF0FF, 0xF007⟩
  | .ldVxK _ => ⟨0xF0FF, 0xF00A⟩
  | .ldDtVx _ => ⟨0xF0FF, 0xF015⟩
  | .ldStVx _ => ⟨0xF0FF, 0xF018⟩
  | .addI _ => ⟨0xF0FF, 0xF01E⟩
  | .ldF _ => ⟨0xF0FF, 0xF029⟩
  | .ldB _ => ⟨0xF0FF, 0xF033⟩
  | .stRegs _ => ⟨0xF0FF, 0xF055⟩
  | .ldRegs _ => ⟨0xF0FF, 0xF065⟩

/-- Table T-R84's (match, mask) pairs, the 34 rows in the table's order. -/
def opcodeTable : List OpcodeRow :=
  [⟨0xFFFF, 0x00E0⟩, ⟨0xFFFF, 0x00EE⟩, ⟨0xF000, 0x1000⟩, ⟨0xF000, 0x2000⟩, ⟨0xF000, 0x3000⟩, ⟨0xF000, 0x4000⟩,
   ⟨0xF00F, 0x5000⟩, ⟨0xF000, 0x6000⟩, ⟨0xF000, 0x7000⟩] ++
  [⟨0xF00F, 0x8000⟩, ⟨0xF00F, 0x8001⟩, ⟨0xF00F, 0x8002⟩, ⟨0xF00F, 0x8003⟩, ⟨0xF00F, 0x8004⟩, ⟨0xF00F, 0x8005⟩,
   ⟨0xF00F, 0x8006⟩, ⟨0xF00F, 0x8007⟩, ⟨0xF00F, 0x800E⟩] ++
  [⟨0xF00F, 0x9000⟩, ⟨0xF000, 0xA000⟩, ⟨0xF000, 0xB000⟩, ⟨0xF000, 0xC000⟩, ⟨0xF000, 0xD000⟩, ⟨0xF0FF, 0xE09E⟩,
   ⟨0xF0FF, 0xE0A1⟩] ++
  [⟨0xF0FF, 0xF007⟩, ⟨0xF0FF, 0xF00A⟩, ⟨0xF0FF, 0xF015⟩, ⟨0xF0FF, 0xF018⟩, ⟨0xF0FF, 0xF01E⟩, ⟨0xF0FF, 0xF029⟩,
   ⟨0xF0FF, 0xF033⟩, ⟨0xF0FF, 0xF055⟩, ⟨0xF0FF, 0xF065⟩]

/-- The instruction this decoder reads from `nbits` bits numbered as spec/opcode_table.json numbers them: the word
is laid out in its two bytes, high byte first, and given to the decoder. -/
def decodeTableWord (nbits w : Nat) : Option Instr :=
  let word : Word := BitVec.ofNat 16 (w % 2 ^ nbits)
  match decodeBytes [hiByte word, loByte word] with
  | .ok (i, _) => some i
  | .error _ => none

end Sys2Proof
end

