-- ==== Sys2Proof/Config.lean ====
section
/-! DEFINITION. The parameters of the hardware: the fixed ones (table T-R5), the configuration record of one instance
(table T-R6) and the free value that stands for the random byte of a cycle. -/

namespace Sys2Proof

/-- MEM_SIZE of table T-R5: bytes of memory. -/
abbrev memSize : Nat := 4096

/-- PROG_BASE of table T-R5: where byte 0 of a program is loaded, and the reset value of `pc`. -/
abbrev progBase : Nat := 0x200

/-- FONT_BASE of table T-R5: the address of glyph 0. -/
abbrev fontBase : Nat := 0x050

/-- FONT_GLYPH_BYTES of table T-R5. -/
abbrev fontGlyphBytes : Nat := 5

/-- The bytes of the whole font: sixteen glyphs of five (table T-R5). -/
abbrev fontBytes : Nat := 80

/-- ROM_MAX of table T-R5: the longest program `load_program` accepts. -/
abbrev romMax : Nat := 3584

/-- INSN_BYTES of table T-R5. -/
abbrev insnBytes : Nat := 2

/-- SHIFT_SRC (R6): the register that 8XY6 and 8XYE shift. -/
inductive ShiftSource where
  | vx
  | vy
deriving DecidableEq, Repr

/-- JUMP_REG (R6): the register BNNN adds. -/
inductive JumpRegister where
  | v0
  | vx
deriving DecidableEq, Repr

/-- STACK_CAPACITY (R6): how many return addresses the call stack holds, or no bound at all. -/
inductive Capacity where
  | bounded (n : Nat)
  | unbounded
deriving DecidableEq, Repr

/-- The configuration record of R6: constants of one instance of the hardware, chosen before reset. -/
structure Config where
  shiftSrc      : ShiftSource
  jumpReg       : JumpRegister
  iOvfFlag      : Bool
  stackCapacity : Capacity
deriving DecidableEq, Repr

/-- The defaults of table T-R6 (decisions D1 and D2 of spec/92_eei_decisions.md). -/
def Config.default : Config :=
  { shiftSrc := .vx, jumpReg := .v0, iOvfFlag := false, stackCapacity := .bounded 16 }

/-- A configuration R6 allows: a bounded capacity is at least 1. -/
def Config.wf (c : Config) : Bool :=
  match c.stackCapacity with
  | .bounded n => decide (1 ≤ n)
  | .unbounded => true

/-- FREE VALUE (log 6): the random byte the host supplies to the n-th executing cycle (R7, R133).
It has no value a proof can see, so what is proved of it holds for every sequence of bytes. -/
opaque Config.freeRandom : Nat → Byte

end Sys2Proof
end

