-- ==== Sys2Proof/Machine/State.lean ====
section
/-! DEFINITION. The state of the machine (10_state.md): the spec's eleven items, the configuration of the instance, the
model's own random input, the reasons a step can stop, and the state after reset. -/

namespace Sys2Proof.Machine

/-- The error kinds a cycle can end with (60_exceptions.md R180, 10_state.md R32). The fifth kind of R180,
ROMTooLarge, is a result of `load_program` only and never stands in the latch (R183). -/
inductive ErrorKind where
  | illegalInstruction
  | stackUnderflow
  | stackOverflow
  | outOfBounds
deriving DecidableEq, Repr

/-- The record the error latch holds (10_state.md R32; the range of an OutOfBounds from table T-R180, log 3). -/
structure ErrRecord where
  /-- the kind of the error -/
  kind  : ErrorKind
  /-- the value `pc` had when the failing cycle started -/
  atPc  : Word
  /-- the instruction word fetched, absent when the fetch itself failed -/
  word  : Option Word
  /-- the failing `addr` and `n` of an OutOfBounds, absent for the other kinds -/
  range : Option (Nat × Nat)
deriving DecidableEq, Repr

/-- The framebuffer: 32 rows of 64 one-bit pixels, row 0 at the top, column 0 at the left (10_state.md R28). -/
abbrev Frame := Vector (Vector Bool 64) 32

/-- Every pixel unlit. -/
def Frame.blank : Frame := Vector.replicate 32 (Vector.replicate 64 false)

/-- Memory as data: the bytes that differ from the contents of reset, by rising address (log 9). What an unlisted
address reads as, and the form itself, are in Machine/Memory.lean. -/
abbrev Memory := List Host.Cell

/-- Why the machine could stop with no next state. NO CONSTRUCTOR: the spec names no such event. Each of its errors is an
effect it describes (60_exceptions.md R184), so a failing cycle is a next state with the latch set (log 1). Safe: nothing stops. -/
inductive Fault : Type
deriving DecidableEq, Repr

/-- Why an instruction could have no meaning. -/
inductive Refusal where
  /-- Raised by an arm of `exec` whose instruction has no meaning yet; no arm is such a one. Safe: the machine stops. -/
  | notModelled (mnemonic : String)
deriving DecidableEq, Repr

/-- The state of the machine (10_state.md R20). -/
structure State where
  /-- V0..VF (R21, R22) -/
  v      : Vector Byte 16
  /-- the index register I (R23) -/
  i      : Word
  /-- the program counter (R24) -/
  pc     : Word
  /-- the call stack, newest return address first (R25, log 11) -/
  stack  : List Word
  /-- the delay timer (R26) -/
  dt     : Byte
  /-- the sound timer (R27) -/
  st     : Byte
  /-- the framebuffer (R28) -/
  fb     : Frame
  /-- the redraw flag (R29) -/
  redraw : Bool
  /-- the keypad mask, bit n is key n (R30) -/
  k      : Word
  /-- memory (R31) -/
  mem    : Memory
  /-- the error latch (R32) -/
  err    : Option ErrRecord
  /-- the configuration of the instance, fixed at reset (00_scope.md R6, log 5) -/
  cfg    : Config
  /-- MODEL's own: the random byte given to the cycle that runs (R7, log 6) -/
  rnd    : Byte
  /-- MODEL's own: how many random bytes the steps have taken (log 6) -/
  draws  : Nat
deriving DecidableEq, Repr

/-- The machine right after reset with the default configuration and font (table T-R35; 70_reset_and_hazards.md R210). -/
def State.reset : State :=
  { v := Vector.replicate 16 0, i := 0, pc := BitVec.ofNat 16 progBase, stack := [], dt := 0, st := 0,
    fb := Frame.blank, redraw := false, k := 0, mem := [], err := none, cfg := Config.default, rnd := 0, draws := 0 }

end Sys2Proof.Machine
end

