-- ==== Sys2Proof/Machine/Memory.lean ====
section
/-! DEFINITION. Memory: the font, what an unlisted address reads as, the canonical form, one-byte accesses, and the range
primitives MemRead and MemWrite (20_memory.md R50 to R57). -/

namespace Sys2Proof.Machine

/-- The 80 bytes of a font, glyph after glyph (20_memory.md R55). -/
abbrev Font := Vector Byte 80

/-- The customary font, table T-R55 (the spec's default for the parameter FONT; PRESUMED by the spec, log 8). -/
def defaultFontBytes : List Byte :=
  [0xF0, 0x90, 0x90, 0x90, 0xF0, 0x20, 0x60, 0x20, 0x20, 0x70, 0xF0, 0x10, 0xF0, 0x80, 0xF0, 0xF0, 0x10, 0xF0, 0x10, 0xF0] ++
  [0x90, 0x90, 0xF0, 0x10, 0x10, 0xF0, 0x80, 0xF0, 0x10, 0xF0, 0xF0, 0x80, 0xF0, 0x90, 0xF0, 0xF0, 0x10, 0x20, 0x40, 0x40] ++
  [0xF0, 0x90, 0xF0, 0x90, 0xF0, 0xF0, 0x90, 0xF0, 0x10, 0xF0, 0xF0, 0x90, 0xF0, 0x90, 0x90, 0xE0, 0x90, 0xE0, 0x90, 0xE0] ++
  [0xF0, 0x80, 0x80, 0x80, 0xF0, 0xE0, 0x90, 0x90, 0x90, 0xE0, 0xF0, 0x80, 0xF0, 0x80, 0xF0, 0xF0, 0x80, 0xF0, 0x80, 0x80]

/-- Table T-R55 as a font of 80 bytes. -/
def defaultFont : Font := ⟨⟨defaultFontBytes⟩, rfl⟩

/-- What an address no entry lists reads as: the contents after reset (tables T-R51, T-R35; log 9). -/
def resetByte (a : Nat) : Byte :=
  if fontBase ≤ a ∧ a < fontBase + fontBytes then defaultFontBytes.getD (a - fontBase) 0 else 0

/-- Every entry's address is at least `lo`, rising, inside the space, and its byte is not the unlisted one. -/
def Memory.wfFrom : Nat → Memory → Bool
  | _, [] => true
  | lo, (a, b) :: rest => decide (lo ≤ a) && decide (a < memSize) && decide (b ≠ resetByte a) && Memory.wfFrom (a + 1) rest

/-- The canonical form: addresses strictly rising and below 4096, no entry equal to what the address reads as unlisted. -/
def Memory.wf (m : Memory) : Bool := Memory.wfFrom 0 m

/-- M[a] (00_scope.md table T-R9). -/
def Memory.read : Memory → Nat → Byte
  | [], a => resetByte a
  | (c, b) :: rest, a => if a = c then b else Memory.read rest a

/-- M[a] <- b, keeping the canonical form: the unlisted value removes the entry. -/
def Memory.write : Memory → Nat → Byte → Memory
  | [], a, b => if b = resetByte a then [] else [(a, b)]
  | (c, d) :: rest, a, b =>
    if a < c then (if b = resetByte a then (c, d) :: rest else (a, b) :: (c, d) :: rest)
    else if a = c then (if b = resetByte a then rest else (a, b) :: rest)
    else (c, d) :: Memory.write rest a b

/-- The bytes M[a], M[a+1], …, ascending (20_memory.md R54). -/
def Memory.readList (m : Memory) (a : Nat) : Nat → List Byte
  | 0 => []
  | n + 1 => m.read a :: Memory.readList m (a + 1) n

/-- M[a + k] <- v[k], ascending (20_memory.md R54). -/
def Memory.writeList (m : Memory) (a : Nat) : List Byte → Memory
  | [] => m
  | b :: bs => Memory.writeList (m.write a b) (a + 1) bs

/-- MemRead(addr, n) of R56: `none` where it raises OutOfBounds. The sum is a natural number, so nothing wraps. -/
def memRead (m : Memory) (addr n : Nat) : Option (List Byte) :=
  if addr + n > memSize then none else some (m.readList addr n)

/-- MemWrite(addr, n, v) of R57, `n` the length of `v`: `none` where it raises OutOfBounds, and then nothing is written. -/
def memWrite (m : Memory) (addr : Nat) (v : List Byte) : Option Memory :=
  if addr + v.length > memSize then none else some (m.writeList addr v)

end Sys2Proof.Machine
end

