-- ==== Sys2Proof/Machine/Ops.lean ====
section
/-! DEFINITION. The named operations over the state: registers, program counter, call stack, the error latch (the only
"exception" the machine has: 60_exceptions.md R184, R185, R188) and the instruction fetch. -/

namespace Sys2Proof.Machine

/-- The outcome type of a meaning. -/
abbrev Result := Host.Outcome State Fault Refusal

/-- Read `x[r]` (00_scope.md table T-R9). -/
def State.reg (s : State) (r : Reg) : Byte := s.v[r]

/-- `x[r] <- b` (00_scope.md table T-R9). No register is hardwired (10_state.md R21). -/
def State.setReg (s : State) (r : Reg) (b : Byte) : State := { s with v := s.v.set r.val b r.isLt }

/-- The result to VX, then the flag to VF, last (41_alu.md R121). -/
def State.setRegFlag (s : State) (x : Reg) (result flag : Byte) : State := (s.setReg x result).setReg VF flag

/-- Step 2 of the cycle: `pc <- pc + 2` (40_cycle_and_control_flow.md R100, R102; mod 65536, 10_state.md R24). -/
def State.advance (s : State) : State := { s with pc := s.pc + 2 }

/-- A skip: a further 2 on the advanced `pc` when the condition holds (40_cycle_and_control_flow.md R105). -/
def State.skipIf (s : State) (c : Bool) : State := if c then { s with pc := s.pc + 2 } else s

/-- `pc <- target`, with no check and no adjustment (40_cycle_and_control_flow.md R108). -/
def State.jumpTo (s : State) (target : Word) : State := { s with pc := target }

/-- The random byte of a cycle reaches the instruction that runs (00_scope.md R7, log 6). -/
def State.withRandom (s : State) (b : Byte) : State := { s with rnd := b, draws := s.draws + 1 }

/-- Whether the call stack is full: `len(stack) = STACK_CAPACITY` (10_state.md R25); never when unbounded. -/
def stackFull (c : Capacity) (stack : List Word) : Bool :=
  match c with
  | .bounded n => decide (stack.length = n)
  | .unbounded => false

/-- `push(v)` of 10_state.md R25: `none` where it raises StackOverflow. -/
def push (c : Capacity) (stack : List Word) (v : Word) : Option (List Word) :=
  if stackFull c stack then none else some (v :: stack)

/-- `pop()` of 10_state.md R25: `none` where it raises StackUnderflow. -/
def pop : List Word → Option (Word × List Word)
  | [] => none
  | top :: rest => some (top, rest)

/-- An error of the cycle, ONE operation for every kind: the latch is set and nothing else changes
(60_exceptions.md R184, R185). `pc` is what the cycle had made of it: unchanged at a failed fetch, advanced after one.
There is no return from an error: only the reset transaction clears the latch (R189). -/
def raiseError (kind : ErrorKind) (atPc : Word) (word : Option Word) (range : Option (Nat × Nat)) (s : State) : Result :=
  .next { s with err := some { kind := kind, atPc := atPc, word := word, range := range } }

/-- An error an executing instruction raises: the cycle started two before the advanced `pc`, and the word fetched is
the instruction's own (log 4). -/
def raiseExec (i : Instr) (kind : ErrorKind) (range : Option (Nat × Nat)) (s : State) : Result :=
  raiseError kind (s.pc - 2) (some (encode i)) range s

/-- OutOfBounds(addr, n) raised by an executing instruction (20_memory.md R56, R57). -/
def raiseBounds (i : Instr) (addr n : Nat) (s : State) : Result :=
  raiseExec i .outOfBounds (some (addr, n)) s

/-- Steps 0 and 1's question: is the core Faulted (60_exceptions.md R185)? -/
def State.faulted (s : State) : Bool := s.err.isSome

/-- The instruction fetch of 20_memory.md R53: the big-endian word at `pc`, `none` where `pc + 2 > 4096`. -/
def fetchWord (s : State) : Option Word :=
  match memRead s.mem s.pc.toNat insnBytes with
  | some [hi, lo] => some (wordOf hi lo)
  | _ => none

/-- Store a word at an address, high byte first, as a fetch reads it. -/
def Memory.placeWord (m : Memory) (a : Nat) (w : Word) : Memory := (m.write a (hiByte w)).write (a + 1) (loByte w)

end Sys2Proof.Machine
end

