-- ==== Sys2Proof/Machine/Operands.lean ====
section
/-! DEFINITION. Every operand form of the instruction set (30_encoding.md R83): immediates, the two configurable register
choices, the block of registers V0..VX, and the one addressing mode (42_index_and_memory.md R146). -/

namespace Sys2Proof.Machine

/-- `zext_16(NNN)` (30_encoding.md R83). -/
def zextNNN (nnn : BitVec 12) : Word := nnn.setWidth 16

/-- An 8-bit register value in 16-bit arithmetic: zero-extended, as every extension of the machine (00_scope.md R8). -/
def zextByte (b : Byte) : Word := b.setWidth 16

/-- The source of 8XY6 and 8XYE: VX, or VY where SHIFT_SRC = VY (41_alu.md R130, R132; log 18). -/
def shiftOperand (x y : Reg) (s : State) : Byte :=
  match s.cfg.shiftSrc with
  | .vx => s.reg x
  | .vy => s.reg y

/-- The register BNNN adds: V0, or the register named by bits 11:8 of the word where JUMP_REG = VX
(40_cycle_and_control_flow.md R110; log 18). -/
def jumpOffset (nnn : BitVec 12) (s : State) : Byte :=
  match s.cfg.jumpReg with
  | .v0 => s.reg 0
  | .vx => s.reg (nnn.extractLsb' 8 4).toFin

/-- The base address of every transfer: the full 16-bit I, never reduced (42_index_and_memory.md R146). -/
def State.base (s : State) : Nat := s.i.toNat

/-- The number of registers FX55 and FX65 move: the field X itself, plus one (42_index_and_memory.md R144). -/
def blockCount (x : Reg) : Nat := x.val + 1

/-- The list x[0], x[1], …, x[X] (42_index_and_memory.md R144). -/
def regBlock (x : Reg) (s : State) : List Byte := s.v.toList.take (blockCount x)

/-- `for k = 0..: x[k] <- b[k]`, from register `k` on (42_index_and_memory.md R145). -/
def loadRegs (s : State) (k : Nat) : List Byte → State
  | [] => s
  | b :: bs => loadRegs (if h : k < 16 then s.setReg ⟨k, h⟩ b else s) (k + 1) bs

/-- The decimal digits of a byte, hundreds first (42_index_and_memory.md R143). -/
def bcdDigits (v : Byte) : List Byte :=
  [BitVec.ofNat 8 (v.toNat / 100), BitVec.ofNat 8 (v.toNat / 10 % 10), BitVec.ofNat 8 (v.toNat % 10)]

/-- The address of the glyph of a value, `0x050 + 5·v`, with no mask on the value (42_index_and_memory.md R142). -/
def glyphAddress (v : Byte) : Word := BitVec.ofNat 16 (fontBase + fontGlyphBytes * v.toNat)

/-- `is_pressed(i)` (44_keypad_and_timer_access.md R166). -/
def isPressed (k : Word) (i : Nat) : Bool := k.getLsbD i

/-- `key_down(v) = bit(v ≤ 15 and K[v] = 1)` (44_keypad_and_timer_access.md R166; log 16). -/
def keyDown (k : Word) (v : Byte) : Bool := decide (v.toNat ≤ 15) && isPressed k v.toNat

/-- `get_first_key_pressed()`: the smallest pressed key, `none` where no key is (44_keypad_and_timer_access.md R166). -/
def firstKeyPressed (k : Word) : Option Nat := (List.range 16).find? (isPressed k)

end Sys2Proof.Machine
end

