-- ==== Sys2Proof/Machine/Alu.lean ====
section
/-! DEFINITION. The twelve load, arithmetic, logic, shift and random instructions (41_alu.md R120 to R133). Every source is
read from the state the instruction started in; the result is written, then the flag (R121, log 15). -/

namespace Sys2Proof.Machine

/-- 6XNN, R122: `x[X] <- NN`. -/
def execLdImm (x : Reg) (nn : Byte) (s : State) : Result := .next (s.setReg x nn)

/-- 7XNN, R123: `x[X] <- (x[X] + NN) mod 256`, no flag. -/
def execAddImm (x : Reg) (nn : Byte) (s : State) : Result := .next (s.setReg x (s.reg x + nn))

/-- 8XY0, R124: `x[X] <- x[Y]`. -/
def execLdReg (x y : Reg) (s : State) : Result := .next (s.setReg x (s.reg y))

/-- 8XY1, R125: bitwise or, no flag. -/
def execOrReg (x y : Reg) (s : State) : Result := .next (s.setReg x (s.reg x ||| s.reg y))

/-- 8XY2, R126: bitwise and, no flag. -/
def execAndReg (x y : Reg) (s : State) : Result := .next (s.setReg x (s.reg x &&& s.reg y))

/-- 8XY3, R127: bitwise exclusive or, no flag. -/
def execXorReg (x y : Reg) (s : State) : Result := .next (s.setReg x (s.reg x ^^^ s.reg y))

/-- 8XY4, R128: the sum mod 256, then VF <- carry. -/
def execAddReg (x y : Reg) (s : State) : Result :=
  .next (s.setRegFlag x (s.reg x + s.reg y) (carryFlag (s.reg x) (s.reg y)))

/-- 8XY5, R129: VX − VY mod 256, then VF <- no borrow. -/
def execSub (x y : Reg) (s : State) : Result :=
  .next (s.setRegFlag x (s.reg x - s.reg y) (noBorrowFlag (s.reg x) (s.reg y)))

/-- 8XY6, R130: the source shifted right by one, then VF <- its bit 0. -/
def execShr (x y : Reg) (s : State) : Result :=
  let a := shiftOperand x y s
  .next (s.setRegFlag x (a >>> 1) (shiftOutLow a))

/-- 8XY7, R131: VY − VX mod 256, then VF <- no borrow. -/
def execSubn (x y : Reg) (s : State) : Result :=
  .next (s.setRegFlag x (s.reg y - s.reg x) (noBorrowFlag (s.reg y) (s.reg x)))

/-- 8XYE, R132: the source shifted left by one, mod 256, then VF <- its bit 7. -/
def execShl (x y : Reg) (s : State) : Result :=
  let a := shiftOperand x y s
  .next (s.setRegFlag x (a <<< 1) (shiftOutHigh a))

/-- CXNN, R133: `x[X] <- NN AND rnd`, the byte given to this cycle (log 6). -/
def execRnd (x : Reg) (nn : Byte) (s : State) : Result := .next (s.setReg x (nn &&& s.rnd))

end Sys2Proof.Machine
end

