-- ==== Sys2Proof/Machine/Control.lean ====
section
/-! DEFINITION. The eight control-transfer instructions (40_cycle_and_control_flow.md R105 to R114). `pc` is the advanced
program counter throughout. -/

namespace Sys2Proof.Machine

/-- 00EE, R106: `pc <- pop()`; StackUnderflow on an empty stack. -/
def execRet (s : State) : Result :=
  match pop s.stack with
  | none => raiseExec .ret .stackUnderflow none s
  | some (top, rest) => .next ({ s with stack := rest }.jumpTo top)

/-- 1NNN, R107: `pc <- zext_16(NNN)`. -/
def execJp (nnn : BitVec 12) (s : State) : Result := .next (s.jumpTo (zextNNN nnn))

/-- 2NNN, R109: `push(pc); pc <- zext_16(NNN)`; StackOverflow on a full stack. -/
def execCall (nnn : BitVec 12) (s : State) : Result :=
  match push s.cfg.stackCapacity s.stack s.pc with
  | none => raiseExec (.call nnn) .stackOverflow none s
  | some stack => .next ({ s with stack := stack }.jumpTo (zextNNN nnn))

/-- BNNN, R110: `pc <- NNN + x[0]`, or `NNN + x[X]` where JUMP_REG = VX; the sum fits and is not masked. -/
def execJpOff (nnn : BitVec 12) (s : State) : Result :=
  .next (s.jumpTo (zextNNN nnn + zextByte (jumpOffset nnn s)))

/-- 3XNN, R111: skip if `x[X] = NN`. -/
def execSeImm (x : Reg) (nn : Byte) (s : State) : Result := .next (s.skipIf (decide (s.reg x = nn)))

/-- 4XNN, R112: skip if `x[X] ≠ NN`. -/
def execSneImm (x : Reg) (nn : Byte) (s : State) : Result := .next (s.skipIf (decide (s.reg x ≠ nn)))

/-- 5XY0, R113: skip if `x[X] = x[Y]`. -/
def execSeReg (x y : Reg) (s : State) : Result := .next (s.skipIf (decide (s.reg x = s.reg y)))

/-- 9XY0, R114: skip if `x[X] ≠ x[Y]`. -/
def execSneReg (x y : Reg) (s : State) : Result := .next (s.skipIf (decide (s.reg x ≠ s.reg y)))

end Sys2Proof.Machine
end

