-- ==== Sys2Proof/Machine/Display.lean ====
section
/-! DEFINITION. The display unit (43_display.md): pixels, clear and draw, and the instructions 00E0 and DXYN. -/

namespace Sys2Proof.Machine

/-- FB[r][c] (43_display.md R150). -/
def Frame.get (f : Frame) (r : Fin 32) (c : Fin 64) : Bool := f[r][c]

/-- FB[r][c] <- b. -/
def Frame.put (f : Frame) (r : Fin 32) (c : Fin 64) (b : Bool) : Frame := f.set r.val (f[r].set c.val b c.isLt) r.isLt

/-- `tr = (y + r) mod 32` (43_display.md R152; 90_conflicts.md C1). -/
def targetRow (y : Byte) (r : Nat) : Fin 32 := ⟨(y.toNat + r) % 32, Nat.mod_lt _ (by decide)⟩

/-- `tc = (x + c) mod 64` (43_display.md R152). -/
def targetCol (x : Byte) (c : Nat) : Fin 64 := ⟨(x.toNat + c) % 64, Nat.mod_lt _ (by decide)⟩

/-- What a draw carries from pixel to pixel: the framebuffer and the collision seen so far. -/
structure DrawState where
  fb        : Frame
  collision : Bool
deriving DecidableEq, Repr

/-- The body of R152's loops for row `r` and column `c` of the sprite, whose byte of that row is `b`. -/
def drawPixel (x y : Byte) (r : Nat) (b : Byte) (d : DrawState) (c : Nat) : DrawState :=
  let sprite := b.getLsbD (7 - c)
  let tr := targetRow y r
  let tc := targetCol x c
  { fb := d.fb.put tr tc (d.fb.get tr tc ^^ sprite), collision := d.collision || (sprite && d.fb.get tr tc) }

/-- R152's inner loop, columns 0 to 7 of sprite row `r`. -/
def drawRow (x y : Byte) (r : Nat) (b : Byte) (d : DrawState) : DrawState :=
  (List.range 8).foldl (drawPixel x y r b) d

/-- R152's outer loop from sprite row `r` on. -/
def drawRows (x y : Byte) (r : Nat) : List Byte → DrawState → DrawState
  | [], d => d
  | b :: bs, d => drawRows x y (r + 1) bs (drawRow x y r b d)

/-- `draw(x, y, height, rows)` of R152, `height` the length of `rows`. -/
def draw (x y : Byte) (rows : List Byte) (f : Frame) : DrawState :=
  drawRows x y 0 rows { fb := f, collision := false }

/-- 00E0, R154: `clear()` of R151, every pixel 0 and the redraw flag set. -/
def execCls (s : State) : Result := .next { s with fb := Frame.blank, redraw := true }

/-- DXYN, R155: the sprite's N bytes at I drawn at (VX, VY), VF <- collision, the redraw flag set; the bound is checked
before any pixel changes. -/
def execDrw (x y : Reg) (n : Nat) (s : State) : Result :=
  match memRead s.mem s.base n with
  | none => raiseBounds (.drw x y n) s.base n s
  | some rows =>
    let d := draw (s.reg x) (s.reg y) rows s.fb
    .next ({ s with fb := d.fb, redraw := true }.setReg VF (collisionFlag d.collision))

/-- The 2048 pixels in row-major order: element `64·r + c` is FB[r][c] (43_display.md R156). -/
def Frame.snapshot (f : Frame) : List Bool := f.toList.flatMap Vector.toList

end Sys2Proof.Machine
end

