-- ==== Sys2Proof/Machine/Index.lean ====
section
/-! DEFINITION. The six index-register and memory-transfer instructions (42_index_and_memory.md R140 to R146). Each transfer
is one checked range access made before any write; I is left as it was (R146). -/

namespace Sys2Proof.Machine

/-- ANNN, R140: `I <- zext_16(NNN)`. -/
def execLdI (nnn : BitVec 12) (s : State) : Result := .next { s with i := zextNNN nnn }

/-- FX1E, R141: `I <- (I + x[X]) mod 65536`; with I_OVF_FLAG on, VF <- whether the sum exceeds 0x0FFF (log 17). -/
def execAddI (x : Reg) (s : State) : Result :=
  let a := s.reg x
  let t := { s with i := s.i + zextByte a }
  .next (if s.cfg.iOvfFlag then t.setReg VF (indexOverflow s.i a) else t)

/-- FX29, R142: `I <- 0x050 + 5·x[X]`. -/
def execLdF (x : Reg) (s : State) : Result := .next { s with i := glyphAddress (s.reg x) }

/-- FX33, R143: the decimal digits of VX to I, I+1, I+2, as one three-byte write. -/
def execLdB (x : Reg) (s : State) : Result :=
  match memWrite s.mem s.base (bcdDigits (s.reg x)) with
  | none => raiseBounds (.ldB x) s.base 3 s
  | some m => .next { s with mem := m }

/-- FX55, R144: V0..VX to I, I+1, …, I+X. -/
def execStRegs (x : Reg) (s : State) : Result :=
  match memWrite s.mem s.base (regBlock x s) with
  | none => raiseBounds (.stRegs x) s.base (blockCount x) s
  | some m => .next { s with mem := m }

/-- FX65, R145: V0..VX from I, I+1, …, I+X. -/
def execLdRegs (x : Reg) (s : State) : Result :=
  match memRead s.mem s.base (blockCount x) with
  | none => raiseBounds (.ldRegs x) s.base (blockCount x) s
  | some bytes => .next (loadRegs s 0 bytes)

end Sys2Proof.Machine
end

