-- ==== Sys2Proof/Machine/Keypad.lean ====
section
/-! DEFINITION. The three keypad instructions (44_keypad_and_timer_access.md R167 to R169). -/

namespace Sys2Proof.Machine

/-- EX9E, R167: skip if the key VX is pressed. -/
def execSkp (x : Reg) (s : State) : Result := .next (s.skipIf (keyDown s.k (s.reg x)))

/-- EXA1, R168: skip if the key VX is not pressed. -/
def execSknp (x : Reg) (s : State) : Result := .next (s.skipIf (!keyDown s.k (s.reg x)))

/-- FX0A, R169: with no key down `pc <- pc − 2`, so that the word runs again; else VX <- the lowest pressed key. -/
def execLdVxK (x : Reg) (s : State) : Result :=
  match firstKeyPressed s.k with
  | none => .next { s with pc := s.pc - 2 }
  | some key => .next (s.setReg x (BitVec.ofNat 8 key))

end Sys2Proof.Machine
end

