-- ==== Sys2Proof/Machine/Timers.lean ====
section
/-! DEFINITION. The three timer-access instructions (44_keypad_and_timer_access.md R170 to R172) and the timer engine's
`tick` (60_exceptions.md R190). -/

namespace Sys2Proof.Machine

/-- FX07, R170: `x[X] <- DT`. -/
def execLdVxDt (x : Reg) (s : State) : Result := .next (s.setReg x s.dt)

/-- FX15, R171: `DT <- x[X]`. -/
def execLdDtVx (x : Reg) (s : State) : Result := .next { s with dt := s.reg x }

/-- FX18, R172: `ST <- x[X]`. -/
def execLdStVx (x : Reg) (s : State) : Result := .next { s with st := s.reg x }

/-- One count of a timer: down by one, and a timer at 0 stays at 0 (60_exceptions.md R190). -/
def countDown (t : Byte) : Byte := if t = 0 then 0 else t - 1

/-- `sound_active`: whether the sound timer was nonzero before the decrement (60_exceptions.md R190; 90_conflicts.md C3). -/
def soundActive (s : State) : Bool := decide (s.st ≠ 0)

/-- `tick()`, 60_exceptions.md R190: both timers counted down, and the bit the host gates its sound with. -/
def tick (s : State) : State × Bool := ({ s with dt := countDown s.dt, st := countDown s.st }, soundActive s)

end Sys2Proof.Machine
end

