-- ==== Sys2Proof/Machine/Cycle.lean ====
section
/-! DEFINITION. The `cycle` transaction (40_cycle_and_control_flow.md R100 to R105) and its result. -/

namespace Sys2Proof.Machine

/-- Steps 2 to 4 of the cycle, on the fetched word: advance, decode, and execute or raise IllegalInstruction.
The random byte reaches the instruction that runs. -/
def runWord (rnd : Byte) (w : Word) (s : State) : Result :=
  match decodeWord w with
  | .error _ => raiseError .illegalInstruction s.pc (some w) none s.advance
  | .ok i => exec i (s.advance.withRandom rnd)

/-- `cycle(rnd)` of R100. Step 0: a Faulted core is refused and nothing changes. Step 1: a failing fetch raises
OutOfBounds with `pc` kept (R101). -/
def cycle (rnd : Byte) (s : State) : Result :=
  if s.faulted then .next s
  else
    match fetchWord s with
    | none => raiseError .outOfBounds s.pc none (some (s.pc.toNat, insnBytes)) s
    | some w => runWord rnd w s

/-- What a transaction can answer the host about success: `Ok`, or one of the five error kinds of 60_exceptions.md R180. -/
inductive Status where
  | ok
  | error (kind : ErrorKind)
  | romTooLarge
deriving DecidableEq, Repr

/-- The codes of table T-R180 (the spec's own numbers, nothing depends on them; log 23). -/
def Status.code : Status → Nat
  | .ok => 0
  | .error .illegalInstruction => 1
  | .error .stackUnderflow => 2
  | .error .stackOverflow => 3
  | .error .outOfBounds => 4
  | .romTooLarge => 5

/-- The result of the cycle that left this state: `Ok` where the latch is clear, else the latched kind. A cycle that
raises sets the latch to the kind it returns, and a refused cycle returns the kind latched (60_exceptions.md R185; log 1). -/
def State.cycleStatus (s : State) : Status :=
  match s.err with
  | none => .ok
  | some e => .error e.kind

/-- What `step` does: one cycle whose random byte is the next free value (log 6). -/
def freeCycle (s : State) : Result := cycle (Config.freeRandom s.draws) s

/-- Make the fetch of the next cycle read `w`: the latch clear, `pc` where a word fits, the word's bytes there. On a state
whose latch is clear and whose `pc` is at most 4094 only the two bytes change (log 12). -/
def State.placeNext (s : State) (w : Word) : State :=
  let at' : Word := if s.pc.toNat + insnBytes ≤ memSize then s.pc else BitVec.ofNat 16 progBase
  { s with err := none, pc := at', mem := s.mem.placeWord at'.toNat w }

end Sys2Proof.Machine
end

