-- ==== Sys2Proof/Machine/Step.lean ====
section
/-! DEFINITION. The step of the machine: one `cycle` transaction with a free random byte, and the placing of an instruction
where it is fetched. -/

namespace Sys2Proof.Machine

/-- One step: `cycle(rnd)` of 40_cycle_and_control_flow.md R100, `rnd` a free value (log 6). The host's other
transactions are not steps (Machine/Transactions.lean, log 13). -/
def step (s : State) : Host.Outcome State Fault Refusal := freeCycle s

/-- The state with an instruction, numbered as spec/opcode_table.json numbers it, where the next step fetches (log 12). -/
def State.withFetchWord (s : State) (nbits w : Nat) : State := s.placeNext (BitVec.ofNat 16 (w % 2 ^ nbits))

end Sys2Proof.Machine
end

