-- ==== Sys2Proof/Machine/Transactions.lean ====
section
/-! DEFINITION. The host's transactions (00_scope.md R10, table T-R10) and runs of them: the whole interface of the core
(log 13). Each is atomic, and the host may issue any list of them (70_reset_and_hazards.md R217, R219). -/

namespace Sys2Proof.Machine

/-- `reset(config, FONT)` of 70_reset_and_hazards.md R210: every item at the value of table T-R35. -/
def resetWith (cfg : Config) (font : Font) : State :=
  { State.reset with mem := Memory.writeList [] fontBase font.toList, cfg := cfg }

/-- `load_program(bytes)` of 20_memory.md R60: the bytes at 0x200 and up and nothing else, or ROMTooLarge and nothing. -/
def loadProgram (bytes : List Byte) (s : State) : State × Status :=
  if bytes.length > romMax then (s, .romTooLarge) else ({ s with mem := s.mem.writeList progBase bytes }, .ok)

/-- The keypad mask with bit `key` set to `p` and the other fifteen kept. -/
def setKeyBit (k : Word) (key : Fin 16) (p : Bool) : Word :=
  if p then k ||| (1#16 <<< key.val) else k &&& ~~~(1#16 <<< key.val)

/-- `set_key(i, p)` of 44_keypad_and_timer_access.md R165. -/
def setKey (key : Fin 16) (p : Bool) (s : State) : State := { s with k := setKeyBit s.k key p }

/-- `get_display()` of 43_display.md R156. -/
def getDisplay (s : State) : List Bool := s.fb.snapshot

/-- `get_redraw()` of 43_display.md R157. -/
def getRedraw (s : State) : Bool := s.redraw

/-- `clear_redraw()` of 43_display.md R157. -/
def clearRedraw (s : State) : State := { s with redraw := false }

/-- What `debug_snapshot()` returns (60_exceptions.md R196). -/
structure Snapshot where
  pc : Word
  i  : Word
  v  : Vector Byte 16
  dt : Byte
  st : Byte
deriving DecidableEq, Repr

/-- `debug_snapshot()` of 60_exceptions.md R196. -/
def debugSnapshot (s : State) : Snapshot := { pc := s.pc, i := s.i, v := s.v, dt := s.dt, st := s.st }

/-- The transactions of table T-R10. -/
inductive Transaction where
  | reset (cfg : Config) (font : Font)
  | loadProgram (bytes : List Byte)
  | setKey (key : Fin 16) (p : Bool)
  | cycle (rnd : Byte)
  | tick
  | getDisplay
  | getRedraw
  | clearRedraw
  | debugSnapshot
deriving DecidableEq, Repr

/-- The results of table T-R10. -/
inductive Reply where
  | none
  | status (s : Status)
  | soundActive (b : Bool)
  | display (pixels : List Bool)
  | redraw (b : Bool)
  | snapshot (s : Snapshot)
deriving DecidableEq, Repr

/-- One transaction: the state after it and its result. `reset` keeps the count of random bytes, which is no state of the
machine, so that the bytes after it are as free as before it (log 14). -/
def transact (t : Transaction) (s : State) : Host.Outcome (State × Reply) Fault Refusal :=
  match t with
  | .reset cfg font => .next ({ resetWith cfg font with draws := s.draws }, .none)
  | .loadProgram bytes => .next ((loadProgram bytes s).1, .status (loadProgram bytes s).2)
  | .setKey key p => .next (setKey key p s, .none)
  | .cycle rnd =>
    match cycle rnd s with
    | .next s' => .next (s', .status s'.cycleStatus)
    | .fault f => .fault f
    | .refused r => .refused r
  | .tick => .next ((tick s).1, .soundActive (tick s).2)
  | .getDisplay => .next (s, .display (getDisplay s))
  | .getRedraw => .next (s, .redraw (getRedraw s))
  | .clearRedraw => .next (clearRedraw s, .none)
  | .debugSnapshot => .next (s, .snapshot (debugSnapshot s))

/-- The state a list of transactions leads to; a run as 60_exceptions.md R198 has it. -/
def runTransactions : List Transaction → State → Host.Outcome State Fault Refusal
  | [], s => .next s
  | t :: ts, s =>
    match transact t s with
    | .next (s', _) => runTransactions ts s'
    | .fault f => .fault f
    | .refused r => .refused r

end Sys2Proof.Machine
end

