-- ==== Sys2Proof/Safety.lean ====
section
/-! DEFINITION. The terms claims are stated in: the invariant of the machine, what an instruction leaves alone, safe runs,
and the predicates on a state that the spec names (awaiting a key, the end of a program). -/

namespace Sys2Proof.Machine

/-- The invariant of the machine, of every state (10_state.md R24, R25, R31; 00_scope.md R6). -/
structure State.Inv (s : State) : Prop where
  /-- memory is in its canonical form -/
  memory     : s.mem.wf = true
  /-- the configuration is one R6 allows -/
  config     : s.cfg.wf = true
  /-- the call stack holds at most STACK_CAPACITY entries (R25) -/
  depth      : ∀ n, s.cfg.stackCapacity = .bounded n → s.stack.length ≤ n
  /-- every return address is an advanced program counter, between 2 and 4096 (R25) -/
  returns    : ∀ a ∈ s.stack, 2 ≤ a.toNat ∧ a.toNat ≤ 4096
  /-- no instruction leaves a program counter above 0x10FE (R24), so its 16-bit arithmetic never wraps -/
  pcBound    : s.pc.toNat ≤ 0x10FE

/-- What an instruction may write. Everything not named is to stay as it was. -/
structure Writes where
  regs   : List Reg := []
  i      : Bool := false
  pc     : Bool := false
  stack  : Bool := false
  dt     : Bool := false
  st     : Bool := false
  fb     : Bool := false
  redraw : Bool := false
  err    : Bool := false
  /-- the first address stored to, and how many bytes -/
  memAt  : Nat := 0
  memLen : Nat := 0

/-- `t` is `s` but for what `w` names: every other register, the index register, the program counter, the stack, the
timers, the framebuffer, the redraw flag, the latch, every byte of memory outside the range, and in every case the
keypad mask, the configuration and the model's own fields. -/
structure OnlyWrites (w : Writes) (s t : State) : Prop where
  regs   : ∀ r, r ∉ w.regs → t.reg r = s.reg r
  i      : w.i = false → t.i = s.i
  pc     : w.pc = false → t.pc = s.pc
  stack  : w.stack = false → t.stack = s.stack
  dt     : w.dt = false → t.dt = s.dt
  st     : w.st = false → t.st = s.st
  fb     : w.fb = false → t.fb = s.fb
  redraw : w.redraw = false → t.redraw = s.redraw
  err    : w.err = false → t.err = s.err
  memory : ∀ a, ¬ (w.memAt ≤ a ∧ a < w.memAt + w.memLen) → t.mem.read a = s.mem.read a
  k      : t.k = s.k
  cfg    : t.cfg = s.cfg
  rnd    : t.rnd = s.rnd
  draws  : t.draws = s.draws

/-- The outcome of an error an executing instruction raises, as 60_exceptions.md R184 and R185 describe it: every item of
state as it was on entry (`pc` the advanced one), and the latch set. -/
def failsWith (e : ErrRecord) (s : State) : Host.Outcome State Fault Refusal := .next { s with err := some e }

/-- The core is not Faulted (60_exceptions.md R185). -/
abbrev State.Healthy (s : State) : Prop := s.err = none

/-- A run of transactions that ends in a state that is not Faulted: a safe run. -/
def SafeRun (ts : List Transaction) (s : State) : Prop := ∃ t, runTransactions ts s = .next t ∧ t.Healthy

/-- "Awaiting key" (10_state.md R34): `pc` points at an FX0A word while no key is down. -/
def State.AwaitingKey (s : State) : Prop := ∃ x, fetchWord s = some (encode (.ldVxK x)) ∧ s.k = 0

/-- The end of a program, the spec's convention D23 (60_exceptions.md R198): not Faulted, and the word at `pc` is 1NNN with
NNN = pc. -/
def State.Ended (s : State) : Prop :=
  s.Healthy ∧ ∃ nnn : BitVec 12, fetchWord s = some (encode (.jp nnn)) ∧ s.pc = nnn.setWidth 16

/-- Two states agree on what decides whether a cycle fails (60_exceptions.md R182): the latch, `pc`, the word there, the
depth of the stack, `I` and the configured capacity. -/
structure SameErrorInputs (s t : State) : Prop where
  err      : t.err = s.err
  pc       : t.pc = s.pc
  word     : fetchWord t = fetchWord s
  depth    : t.stack.length = s.stack.length
  i        : t.i = s.i
  capacity : t.cfg.stackCapacity = s.cfg.stackCapacity

/-- The bit of a sprite at row offset `r`, column offset `c`: bit 7 of a row's byte is column offset 0 (43_display.md R152). -/
def spriteBit (rows : List Byte) (r c : Nat) : Bool := (rows.getD r 0).getLsbD (7 - c)

/-- The pixel a sprite's row offset `r` and column offset `c` land on, for a sprite drawn at (x, y) (43_display.md R152). -/
def Frame.target (f : Frame) (x y : Byte) (r c : Nat) : Bool := f.get (targetRow y r) (targetCol x c)

/-- Whether an instruction's pseudocode mentions `pc`: the transfers, the skips and FX0A (10_state.md R24). -/
def movesPc : Instr → Bool
  | .ret | .jp _ | .call _ | .jpOff _ => true
  | .seImm _ _ | .sneImm _ _ | .seReg _ _ | .sneReg _ _ | .skp _ | .sknp _ | .ldVxK _ => true
  | .cls | .ldImm _ _ | .addImm _ _ | .ldReg _ _ | .orReg _ _ | .andReg _ _ | .xorReg _ _ | .addReg _ _ => false
  | .sub _ _ | .shr _ _ | .subn _ _ | .shl _ _ | .ldI _ | .rnd _ _ | .drw _ _ _ => false
  | .ldVxDt _ | .ldDtVx _ | .ldStVx _ | .addI _ | .ldF _ | .ldB _ | .stRegs _ | .ldRegs _ => false

/-- The error an instruction raises at execute, exhaustively (60_exceptions.md R181): `none` for the 28 that raise nothing. -/
def execError (i : Instr) (s : State) : Option ErrorKind :=
  match i with
  | .ret => if s.stack.length = 0 then some .stackUnderflow else none
  | .call _ => if s.cfg.stackCapacity = .bounded s.stack.length then some .stackOverflow else none
  | .ldB _ => if s.i.toNat + 3 > 4096 then some .outOfBounds else none
  | .stRegs x | .ldRegs x => if s.i.toNat + x.val + 1 > 4096 then some .outOfBounds else none
  | .drw _ _ n => if s.i.toNat + n > 4096 then some .outOfBounds else none
  | .cls | .jp _ | .seImm _ _ | .sneImm _ _ | .seReg _ _ | .ldImm _ _ | .addImm _ _ | .ldReg _ _ => none
  | .orReg _ _ | .andReg _ _ | .xorReg _ _ | .addReg _ _ | .sub _ _ | .shr _ _ | .subn _ _ | .shl _ _ => none
  | .sneReg _ _ | .ldI _ | .jpOff _ | .rnd _ _ | .skp _ | .sknp _ | .ldVxDt _ | .ldVxK _ => none
  | .ldDtVx _ | .ldStVx _ | .addI _ | .ldF _ => none

/-- The error a cycle ends with, in the order of 60_exceptions.md R186: the latched one, the fetch, an illegal word, the
instruction's own. -/
def cycleError (s : State) : Option ErrorKind :=
  match s.err with
  | some e => some e.kind
  | none =>
    if s.pc.toNat + 2 > 4096 then some .outOfBounds
    else
      match decodeWord (wordOf (s.mem.read s.pc.toNat) (s.mem.read (s.pc.toNat + 1))) with
      | .error _ => some .illegalInstruction
      | .ok i => execError i s

/-- The result a cycle returns for an error or its absence. -/
def statusOf : Option ErrorKind → Status
  | none => .ok
  | some k => .error k

/-- The instructions that write VF as a flag (10_state.md R22); FX1E only with I_OVF_FLAG on. -/
def flagWriter (cfg : Config) : Instr → Bool
  | .addReg _ _ | .sub _ _ | .shr _ _ | .subn _ _ | .shl _ _ | .drw _ _ _ => true
  | .addI _ => cfg.iOvfFlag
  | .cls | .ret | .jp _ | .call _ | .seImm _ _ | .sneImm _ _ | .seReg _ _ | .ldImm _ _ | .addImm _ _ => false
  | .ldReg _ _ | .orReg _ _ | .andReg _ _ | .xorReg _ _ | .sneReg _ _ | .ldI _ | .jpOff _ | .rnd _ _ => false
  | .skp _ | .sknp _ | .ldVxDt _ | .ldVxK _ | .ldDtVx _ | .ldStVx _ | .ldF _ | .ldB _ | .stRegs _ | .ldRegs _ => false

/-- What each instruction may write: its column of the access matrix, table T-R36 of 10_state.md, with the latch for those
that can fail and, for a store, the bytes at I. -/
def mayWrite (i : Instr) (s : State) : Writes :=
  match i with
  | .cls => { fb := true, redraw := true }
  | .ret => { pc := true, stack := true, err := true }
  | .call _ => { pc := true, stack := true, err := true }
  | .jp _ | .jpOff _ | .seImm _ _ | .sneImm _ _ | .seReg _ _ | .sneReg _ _ | .skp _ | .sknp _ => { pc := true }
  | .ldImm x _ | .addImm x _ | .ldReg x _ | .orReg x _ | .andReg x _ | .xorReg x _ | .rnd x _ | .ldVxDt x => { regs := [x] }
  | .addReg x _ | .sub x _ | .shr x _ | .subn x _ | .shl x _ => { regs := [x, VF] }
  | .ldI _ | .ldF _ => { i := true }
  | .addI _ => { regs := if s.cfg.iOvfFlag then [VF] else [], i := true }
  | .drw _ _ _ => { regs := [VF], fb := true, redraw := true, err := true }
  | .ldVxK x => { regs := [x], pc := true }
  | .ldDtVx _ => { dt := true }
  | .ldStVx _ => { st := true }
  | .ldB _ => { err := true, memAt := s.i.toNat, memLen := 3 }
  | .stRegs x => { err := true, memAt := s.i.toNat, memLen := x.val + 1 }
  | .ldRegs x => { regs := (List.finRange 16).filter (fun r => decide (r ≤ x)), err := true }

end Sys2Proof.Machine
end

