-- ==== Sys2Proof/Certificates/Slice0/Obligations.lean ====
section
/-! DEFINITION. The statements for the provers. Each docstring names the rule of spec/ it formalises. `exec` runs on the
state step 2 of the cycle left, so `pc` in a statement about `exec` is the advanced program counter. -/

open Sys2Proof Sys2Proof.Machine

/-! ## Encoding -/

/-- T-R84, R86: words written out from the table decode to the instruction they stand for, and
words of R86's families are refused. -/
def Obligations.TableWordsDecode : Prop :=
  decodeWord 0x00E0 = .ok .cls ∧ decodeWord 0x00EE = .ok .ret ∧ decodeWord 0x1234 = .ok (.jp 0x234) ∧
  decodeWord 0x312A = .ok (.seImm 1 0x2A) ∧ decodeWord 0x9120 = .ok (.sneReg 1 2) ∧ decodeWord 0x812E = .ok (.shl 1 2) ∧
  decodeWord 0xB2FF = .ok (.jpOff 0x2FF) ∧ decodeWord 0xD015 = .ok (.drw 0 1 5) ∧ decodeWord 0xE5A1 = .ok (.sknp 5) ∧
  decodeWord 0xF30A = .ok (.ldVxK 3) ∧ decodeWord 0xF265 = .ok (.ldRegs 2) ∧
  decodeWord 0x0123 = .error .family0 ∧ decodeWord 0x5AB1 = .error .family5 ∧ decodeWord 0x800F = .error .family8 ∧
  decodeWord 0x9AB1 = .error .family9 ∧ decodeWord 0xE09F = .error .familyE ∧ decodeWord 0xF075 = .error .familyF

/-- Decode and encode agree on every well-formed instruction, as a word and as bytes at the head of any others. -/
def Obligations.DecodeOfEncode : Prop :=
  ∀ (i : Instr) (rest : List Byte), i.WellFormed →
    decodeWord (encode i) = .ok i ∧ decodeBytes (encodeBytes i ++ rest) = .ok (i, rest)

/-- Every word has one meaning: what a word decodes to is well formed and encodes to that word again. -/
def Obligations.EncodeOfDecode : Prop :=
  ∀ (w : Word) (i : Instr), decodeWord w = .ok i → i.WellFormed ∧ encode i = w

/-- R84: a word is an instruction exactly when it selects a row of the table, the row is that of the instruction read, and
no word selects two rows. -/
def Obligations.DecoderFollowsOpcodeTable : Prop :=
  (∀ (w : Word) (i : Instr), decodeWord w = .ok i → i.row ∈ opcodeTable ∧ w &&& i.row.mask = i.row.value) ∧
  (∀ w : Word, (∃ i, decodeWord w = .ok i) ↔ ∃ row ∈ opcodeTable, w &&& row.mask = row.value) ∧
  (∀ (w : Word) (p q : OpcodeRow), p ∈ opcodeTable → q ∈ opcodeTable → w &&& p.mask = p.value → w &&& q.mask = q.value → p = q)

/-! ## Reset and memory -/

/-- R35, R210: the reset transaction, from any state and for any configuration and font. The document gives pc, the font's
place and the empty stack; the zeros are the spec's decision D4 (log 7), the latch its decision D5. -/
def Obligations.ResetLeavesTableValues : Prop :=
  ∀ (cfg : Config) (font : Font) (s : State), ∃ t, transact (.reset cfg font) s = .next (t, .none) ∧
    (∀ r, t.reg r = 0) ∧ t.i = 0 ∧ t.pc = 0x200 ∧ t.stack = [] ∧ t.dt = 0 ∧ t.st = 0 ∧
    (∀ r c, t.fb.get r c = false) ∧ t.redraw = false ∧ t.k = 0 ∧ t.err = none ∧ t.cfg = cfg ∧ t.mem.wf = true ∧
    (∀ n : Fin 80, t.mem.read (0x050 + n.val) = font[n]) ∧
    (∀ a, a < 0x050 ∨ 0x0A0 ≤ a → t.mem.read a = 0)

/-- `State.reset` is the reset of the default configuration and font, and meets the invariant. -/
def Obligations.ResetMeetsInvariant : Prop := State.reset = resetWith Config.default defaultFont ∧ State.reset.Inv

/-- R56 (one check of the whole range: the spec's decision D19, log 20): MemRead answers the n bytes from `addr` on
exactly when `addr + n ≤ 4096`. -/
def Obligations.MemReadReturnsTheRange : Prop :=
  ∀ (m : Memory) (addr n : Nat),
    (4096 < addr + n → memRead m addr n = none) ∧
    (addr + n ≤ 4096 → ∃ bytes, memRead m addr n = some bytes ∧ bytes.length = n ∧
      ∀ k, k < n → bytes[k]? = some (m.read (addr + k)))

/-- R57 (all or nothing: the spec's decision D19, log 20): MemWrite changes nothing when the range leaves memory, and
otherwise stores byte k at `addr + k`, changes no other byte and keeps the canonical form. -/
def Obligations.MemWriteStoresTheRange : Prop :=
  ∀ (m : Memory) (addr : Nat) (v : List Byte), m.wf = true →
    (4096 < addr + v.length → memWrite m addr v = none) ∧
    (addr + v.length ≤ 4096 → ∃ m', memWrite m addr v = some m' ∧ m'.wf = true ∧
      (∀ k, k < v.length → v[k]? = some (m'.read (addr + k))) ∧
      (∀ a, ¬ (addr ≤ a ∧ a < addr + v.length) → m'.read a = m.read a))

/-! ## The cycle -/

/-- R100, R53: on a core that is not Faulted, when the two bytes at `pc` decode to an instruction, a cycle is that
instruction executed with `pc` advanced by 2 and the cycle's random byte, and a step is such a cycle with the free byte. -/
def Obligations.StepRunsTheDecodedInstruction : Prop :=
  ∀ (rnd : Byte) (s : State) (i : Instr), s.Healthy → s.pc.toNat ≤ 4094 →
    decodeWord (wordOf (s.mem.read s.pc.toNat) (s.mem.read (s.pc.toNat + 1))) = .ok i →
      cycle rnd s = exec i { s with pc := s.pc + 2, rnd := rnd, draws := s.draws + 1 } ∧
      step s = exec i { s with pc := s.pc + 2, rnd := Config.freeRandom s.draws, draws := s.draws + 1 }

/-- R101 (the spec's decision D7, log 20; the latch D5, log 2): a fetch that does not fit fails the cycle, `pc` kept, only the
latch set. That the record also holds the range (`pc`, 2) is the model's choice, DEDUCED from table T-R180 (log 3): R101 gives
the kind, the address and the absent word only. -/
def Obligations.FetchPastTheEndFails : Prop :=
  ∀ (rnd : Byte) (s : State), s.Healthy → 4095 ≤ s.pc.toNat →
    cycle rnd s = .next { s with err := some ⟨.outOfBounds, s.pc, none, some (s.pc.toNat, 2)⟩ } ∧ step s = cycle rnd s

/-- R86, R184 (the spec's decisions D12, D5; logs 19, 2): an illegal word advances `pc`, sets the latch and does nothing else.
That the record has a range component, absent here, is the model's choice, DEDUCED from table T-R180 (log 3). -/
def Obligations.IllegalWordAdvancesAndLatches : Prop :=
  ∀ (rnd : Byte) (s : State) (w : Word) (e : DecodeError), s.Healthy → fetchWord s = some w → decodeWord w = .error e →
    cycle rnd s = .next { s with pc := s.pc + 2, err := some ⟨.illegalInstruction, s.pc, some w, none⟩ } ∧
    step s = cycle rnd s

/-- R102: a fetched word advances `pc` by 2 without wrapping, whatever it is; an instruction executes with the advanced `pc`;
after an error `pc` is the advanced one, and so it is after an instruction whose pseudocode does not mention `pc`. -/
def Obligations.EveryFetchedWordAdvances : Prop :=
  ∀ (rnd : Byte) (s : State) (w : Word), s.Healthy → fetchWord s = some w →
    (s.pc + 2).toNat = s.pc.toNat + 2 ∧
    ∃ t, cycle rnd s = .next t ∧
      (t.cycleStatus ≠ .ok → t.pc = s.pc + 2) ∧
      (∀ i, decodeWord w = .ok i →
        exec i { s with pc := s.pc + 2, rnd := rnd, draws := s.draws + 1 } = .next t ∧ (movesPc i = false → t.pc = s.pc + 2))

/-- R185 (the spec's decision D5): a Faulted core refuses the cycle, changes nothing and answers the latched kind. -/
def Obligations.FaultedCoreRefusesCycles : Prop :=
  ∀ (rnd : Byte) (s : State) (e : ErrRecord), s.err = some e →
    transact (.cycle rnd) s = .next (s, .status (.error e.kind)) ∧ step s = .next s

/-! ## Control transfer -/

/-- R107: `1NNN` sets `pc` to NNN and writes nothing else. -/
def Obligations.JumpSetsPc : Prop :=
  ∀ (nnn : BitVec 12) (s : State), ∃ t, exec (.jp nnn) s = .next t ∧ t.pc.toNat = nnn.toNat ∧
    OnlyWrites { pc := true } s t

/-- R110: `BNNN` sets `pc` to the unmasked sum of NNN and V0; with JUMP_REG = VX (the spec's decision D16, log 18) of NNN and
the register bits 11:8 name. -/
def Obligations.JumpWithOffsetAddsRegister : Prop :=
  ∀ (nnn : BitVec 12) (s : State), ∃ t, exec (.jpOff nnn) s = .next t ∧ OnlyWrites { pc := true } s t ∧
    (s.cfg.jumpReg = .v0 → t.pc.toNat = nnn.toNat + (s.reg 0).toNat) ∧
    (s.cfg.jumpReg = .vx → ∀ x : Reg, x.val = nnn.toNat / 256 → t.pc.toNat = nnn.toNat + (s.reg x).toNat)

/-- R109: `2NNN` pushes the advanced `pc` and jumps, unless the stack holds STACK_CAPACITY entries; then StackOverflow,
with the stack and `pc` as they were. -/
def Obligations.CallPushesAdvancedPc : Prop :=
  ∀ (nnn : BitVec 12) (s : State),
    (s.cfg.stackCapacity ≠ .bounded s.stack.length → ∃ t, exec (.call nnn) s = .next t ∧
      t.stack = s.pc :: s.stack ∧ t.pc.toNat = nnn.toNat ∧ OnlyWrites { pc := true, stack := true } s t) ∧
    (s.cfg.stackCapacity = .bounded s.stack.length → ∃ t, exec (.call nnn) s = .next t ∧
      t.cycleStatus = .error .stackOverflow ∧ OnlyWrites { err := true } s t)

/-- R106: `00EE` pops the newest return address into `pc`; on an empty stack StackUnderflow, with nothing else changed. -/
def Obligations.ReturnPopsNewest : Prop :=
  ∀ s : State,
    (∀ top rest, s.stack = top :: rest → ∃ t, exec .ret s = .next t ∧ t.pc = top ∧ t.stack = rest ∧
      OnlyWrites { pc := true, stack := true } s t) ∧
    (s.stack = [] → ∃ t, exec .ret s = .next t ∧ t.cycleStatus = .error .stackUnderflow ∧ OnlyWrites { err := true } s t)

/-- A call and then a return, with room on the stack, leave every register, the stack and memory as they were and `pc` at the
word after the call. -/
def Obligations.ReturnUndoesCall : Prop :=
  ∀ (nnn : BitVec 12) (s t : State), s.cfg.stackCapacity ≠ .bounded s.stack.length → exec (.call nnn) s = .next t →
    exec .ret { t with pc := t.pc + 2 } = .next s

/-- R111, R112: the skips on an immediate. -/
def Obligations.SkipsCompareImmediate : Prop :=
  ∀ (x : Reg) (nn : Byte) (s : State),
    (∃ t, exec (.seImm x nn) s = .next t ∧ OnlyWrites { pc := true } s t ∧
      (s.reg x = nn → t.pc = s.pc + 2) ∧ (s.reg x ≠ nn → t.pc = s.pc)) ∧
    (∃ t, exec (.sneImm x nn) s = .next t ∧ OnlyWrites { pc := true } s t ∧
      (s.reg x = nn → t.pc = s.pc) ∧ (s.reg x ≠ nn → t.pc = s.pc + 2))

/-- R113, R114: the skips on two registers. -/
def Obligations.SkipsCompareRegisters : Prop :=
  ∀ (x y : Reg) (s : State),
    (∃ t, exec (.seReg x y) s = .next t ∧ OnlyWrites { pc := true } s t ∧
      (s.reg x = s.reg y → t.pc = s.pc + 2) ∧ (s.reg x ≠ s.reg y → t.pc = s.pc)) ∧
    (∃ t, exec (.sneReg x y) s = .next t ∧ OnlyWrites { pc := true } s t ∧
      (s.reg x = s.reg y → t.pc = s.pc) ∧ (s.reg x ≠ s.reg y → t.pc = s.pc + 2))

/-! ## Registers -/

/-- R122, R124: the loads of a register, VF an ordinary destination. -/
def Obligations.LoadsCopyTheirSource : Prop :=
  ∀ (x y : Reg) (nn : Byte) (s : State),
    (∃ t, exec (.ldImm x nn) s = .next t ∧ t.reg x = nn ∧ OnlyWrites { regs := [x] } s t) ∧
    (∃ t, exec (.ldReg x y) s = .next t ∧ t.reg x = s.reg y ∧ OnlyWrites { regs := [x] } s t)

/-- R123: `7XNN` adds mod 256 and writes no flag. -/
def Obligations.AddImmediateWrapsWithoutFlag : Prop :=
  ∀ (x : Reg) (nn : Byte) (s : State), ∃ t, exec (.addImm x nn) s = .next t ∧
    (t.reg x).toNat = ((s.reg x).toNat + nn.toNat) % 256 ∧ OnlyWrites { regs := [x] } s t

/-- R125, R126, R127: or, and, exclusive or, bit by bit, no flag. -/
def Obligations.LogicActsBitwise : Prop :=
  ∀ (x y : Reg) (s : State),
    (∃ t, exec (.orReg x y) s = .next t ∧ OnlyWrites { regs := [x] } s t ∧
      ∀ n, (t.reg x).getLsbD n = ((s.reg x).getLsbD n || (s.reg y).getLsbD n)) ∧
    (∃ t, exec (.andReg x y) s = .next t ∧ OnlyWrites { regs := [x] } s t ∧
      ∀ n, (t.reg x).getLsbD n = ((s.reg x).getLsbD n && (s.reg y).getLsbD n)) ∧
    (∃ t, exec (.xorReg x y) s = .next t ∧ OnlyWrites { regs := [x] } s t ∧
      ∀ n, (t.reg x).getLsbD n = ((s.reg x).getLsbD n ^^ (s.reg y).getLsbD n))

/-- R128: `8XY4` stores the sum mod 256 and then the carry in VF, last (that with X = F the flag is what stays is the spec's
decision D3, log 15). -/
def Obligations.AddRegistersSetsCarry : Prop :=
  ∀ (x y : Reg) (s : State), ∃ t, exec (.addReg x y) s = .next t ∧ OnlyWrites { regs := [x, VF] } s t ∧
    (x ≠ VF → (t.reg x).toNat = ((s.reg x).toNat + (s.reg y).toNat) % 256) ∧
    ((s.reg x).toNat + (s.reg y).toNat > 255 → t.reg VF = 1) ∧
    ((s.reg x).toNat + (s.reg y).toNat ≤ 255 → t.reg VF = 0)

/-- R129, R131: `8XY5` and `8XY7` store the difference mod 256 in VX and then "no borrow" in VF, last (for
X = F the spec's decision D3, log 15). -/
def Obligations.SubtractionsSetNoBorrow : Prop :=
  ∀ (x y : Reg) (s : State),
    (∃ t, exec (.sub x y) s = .next t ∧ OnlyWrites { regs := [x, VF] } s t ∧
      (x ≠ VF → ((t.reg x).toNat : Int) = ((s.reg x).toNat - (s.reg y).toNat : Int) % 256) ∧
      ((s.reg x).toNat ≥ (s.reg y).toNat → t.reg VF = 1) ∧ ((s.reg x).toNat < (s.reg y).toNat → t.reg VF = 0)) ∧
    (∃ t, exec (.subn x y) s = .next t ∧ OnlyWrites { regs := [x, VF] } s t ∧
      (x ≠ VF → ((t.reg x).toNat : Int) = ((s.reg y).toNat - (s.reg x).toNat : Int) % 256) ∧
      ((s.reg y).toNat ≥ (s.reg x).toNat → t.reg VF = 1) ∧ ((s.reg y).toNat < (s.reg x).toNat → t.reg VF = 0))

/-- R130, R132: the shifts by one, of VX, or of VY where SHIFT_SRC = VY (the spec's decision D25, log 18); the bit shifted
out to VF, last (for X = F the spec's decision D3, log 15). -/
def Obligations.ShiftsMoveOneBit : Prop :=
  ∀ (x y z : Reg) (s : State), (s.cfg.shiftSrc = .vx ∧ z = x ∨ s.cfg.shiftSrc = .vy ∧ z = y) →
    (∃ t, exec (.shr x y) s = .next t ∧ OnlyWrites { regs := [x, VF] } s t ∧
      (x ≠ VF → (t.reg x).toNat = (s.reg z).toNat / 2) ∧ (t.reg VF).toNat = (s.reg z).toNat % 2) ∧
    (∃ t, exec (.shl x y) s = .next t ∧ OnlyWrites { regs := [x, VF] } s t ∧
      (x ≠ VF → (t.reg x).toNat = 2 * (s.reg z).toNat % 256) ∧ (t.reg VF).toNat = (s.reg z).toNat / 128)

/-- R133 (any byte, the spec's decision D14, log 6): `CXNN` stores NN AND the byte the cycle was given, whatever that is. -/
def Obligations.RandomByteIsMasked : Prop :=
  ∀ (x : Reg) (nn : Byte) (s : State), ∃ t, exec (.rnd x nn) s = .next t ∧ OnlyWrites { regs := [x] } s t ∧
    ∀ n, (t.reg x).getLsbD n = (nn.getLsbD n && s.rnd.getLsbD n)

/-- R22: an instruction that writes VF as a flag leaves it 0 or 1 (also with X = F, the spec's decision D3, log 15), and
one that does not leaves it alone unless VF is among the registers it writes as VX. -/
def Obligations.FlagIsZeroOrOne : Prop :=
  ∀ (i : Instr) (s t : State), s.Healthy → exec i s = .next t → t.Healthy →
    (flagWriter s.cfg i = true → t.reg VF = 0 ∨ t.reg VF = 1) ∧
    (VF ∉ (mayWrite i s).regs → t.reg VF = s.reg VF)

/-! ## Index register and memory transfers -/

/-- R140: `ANNN`. -/
def Obligations.LoadIndexTakesImmediate : Prop :=
  ∀ (nnn : BitVec 12) (s : State), ∃ t, exec (.ldI nnn) s = .next t ∧ t.i.toNat = nnn.toNat ∧ OnlyWrites { i := true } s t

/-- R141 (the spec's decision D9, log 17): `FX1E` adds mod 65536, never masked; with I_OVF_FLAG on VF tells whether the sum
exceeds 0x0FFF, with it off VF is untouched. -/
def Obligations.AddIndexWraps : Prop :=
  ∀ (x : Reg) (s : State), ∃ t, exec (.addI x) s = .next t ∧
    t.i.toNat = (s.i.toNat + (s.reg x).toNat) % 65536 ∧
    (s.cfg.iOvfFlag = false → OnlyWrites { i := true } s t) ∧
    (s.cfg.iOvfFlag = true → OnlyWrites { regs := [VF], i := true } s t ∧
      (s.i.toNat + (s.reg x).toNat > 0x0FFF → t.reg VF = 1) ∧ (s.i.toNat + (s.reg x).toNat ≤ 0x0FFF → t.reg VF = 0))

/-- R142: `FX29`, with no mask on VX (derived there from the formula). -/
def Obligations.GlyphAddressIsUnmasked : Prop :=
  ∀ (x : Reg) (s : State), ∃ t, exec (.ldF x) s = .next t ∧ t.i.toNat = 0x050 + 5 * (s.reg x).toNat ∧
    OnlyWrites { i := true } s t

/-- R143: `FX33` stores the hundreds, tens and ones digit at I, I+1, I+2, or fails and stores nothing (all
or nothing, and I kept, are the spec's decisions D19 and D10, logs 20 and 21). -/
def Obligations.DecimalDigitsAreStored : Prop :=
  ∀ (x : Reg) (s : State), s.mem.wf = true →
    (s.i.toNat + 3 ≤ 4096 → ∃ t, exec (.ldB x) s = .next t ∧
      (t.mem.read s.i.toNat).toNat = (s.reg x).toNat / 100 ∧
      (t.mem.read (s.i.toNat + 1)).toNat = (s.reg x).toNat / 10 % 10 ∧
      (t.mem.read (s.i.toNat + 2)).toNat = (s.reg x).toNat % 10 ∧
      OnlyWrites { memAt := s.i.toNat, memLen := 3 } s t) ∧
    (4096 < s.i.toNat + 3 → ∃ t, exec (.ldB x) s = .next t ∧ t.cycleStatus = .error .outOfBounds ∧
      OnlyWrites { err := true } s t)

/-- R144: `FX55` stores V0..VX at I, I+1, …, I+X, or fails and stores nothing; I is kept (the spec's decision D10, log
21). -/
def Obligations.RegisterBlockIsStored : Prop :=
  ∀ (x : Reg) (s : State), s.mem.wf = true →
    (s.i.toNat + x.val + 1 ≤ 4096 → ∃ t, exec (.stRegs x) s = .next t ∧
      (∀ r : Reg, r ≤ x → t.mem.read (s.i.toNat + r.val) = s.reg r) ∧
      OnlyWrites { memAt := s.i.toNat, memLen := x.val + 1 } s t) ∧
    (4096 < s.i.toNat + x.val + 1 → ∃ t, exec (.stRegs x) s = .next t ∧ t.cycleStatus = .error .outOfBounds ∧
      OnlyWrites { err := true } s t)

/-- R145: `FX65` loads V0..VX from I, I+1, …, I+X and leaves the registers above VX, or fails and changes no register;
I is kept (the spec's decision D10, log 21). -/
def Obligations.RegisterBlockIsLoaded : Prop :=
  ∀ (x : Reg) (s : State),
    (s.i.toNat + x.val + 1 ≤ 4096 → ∃ t, exec (.ldRegs x) s = .next t ∧
      (∀ r : Reg, r ≤ x → t.reg r = s.mem.read (s.i.toNat + r.val)) ∧
      (∀ r : Reg, x < r → t.reg r = s.reg r) ∧
      OnlyWrites { regs := List.finRange 16 } s t) ∧
    (4096 < s.i.toNat + x.val + 1 → ∃ t, exec (.ldRegs x) s = .next t ∧ t.cycleStatus = .error .outOfBounds ∧
      OnlyWrites { err := true } s t)

/-- "FX55 then FX65 through the same address round-trips V0..VX exactly": whatever the registers become in between, with
I, the stored memory and the configuration kept, the load brings V0..VX back. -/
def Obligations.StoreThenLoadRoundTrips : Prop :=
  ∀ (x : Reg) (s t u w : State), s.mem.wf = true → s.i.toNat + x.val + 1 ≤ 4096 → exec (.stRegs x) s = .next t →
    u.mem = t.mem → u.i = s.i → exec (.ldRegs x) u = .next w → ∀ r : Reg, r ≤ x → w.reg r = s.reg r

/-- R66: a word stored by `FX55` over the place `pc` points at is the word the next cycle fetches. -/
def Obligations.StoreIsSeenByNextFetch : Prop :=
  ∀ (x r q : Reg) (s t : State), s.mem.wf = true → s.i.toNat + x.val + 1 ≤ 4096 → exec (.stRegs x) s = .next t →
    s.pc.toNat = s.i.toNat + r.val → q.val = r.val + 1 → q ≤ x → fetchWord t = some (wordOf (s.reg r) (s.reg q))

/-! ## Display -/

/-- R151, R154: `00E0` clears every pixel and sets the redraw flag, and writes nothing else. -/
def Obligations.ClearBlanksDisplay : Prop :=
  ∀ s : State, ∃ t, exec .cls s = .next t ∧ (∀ r c, t.fb.get r c = false) ∧ t.redraw = true ∧
    OnlyWrites { fb := true, redraw := true } s t

/-- R152, R153 (a) to (c): the loops of `draw` XOR each target pixel once with its sprite bit, leave every other pixel, and
report a collision exactly when a set bit met a lit pixel of the framebuffer as it was. -/
def Obligations.DrawXorsEachTargetOnce : Prop :=
  ∀ (x y : Byte) (rows : List Byte) (f : Frame), rows.length ≤ 15 →
    (∀ r c, r < rows.length → c < 8 →
      (draw x y rows f).fb.target x y r c = (f.target x y r c ^^ spriteBit rows r c)) ∧
    (∀ tr tc, (∀ r c, r < rows.length → c < 8 → ¬ (tr = targetRow y r ∧ tc = targetCol x c)) →
      (draw x y rows f).fb.get tr tc = f.get tr tc) ∧
    ((draw x y rows f).collision = true ↔
      ∃ r c, r < rows.length ∧ c < 8 ∧ spriteBit rows r c = true ∧ f.target x y r c = true)

/-- R153 (d), as 90_conflicts.md C6 corrects it: an identical second draw restores the framebuffer, and reports a collision
exactly when the first lit a pixel that was dark. -/
def Obligations.DrawTwiceRestores : Prop :=
  ∀ (x y : Byte) (rows : List Byte) (f : Frame), rows.length ≤ 15 →
    (draw x y rows (draw x y rows f).fb).fb = f ∧
    ((draw x y rows (draw x y rows f).fb).collision = true ↔
      ∃ r c, r < rows.length ∧ c < 8 ∧ spriteBit rows r c = true ∧ f.target x y r c = false)

/-- R155 (for N = 0 the spec's decision D11, log 19; I kept, D10, log 21; the flag last, D3, log 15): `DXYN` draws the N
bytes at I at (VX, VY), puts the collision in VF and sets the redraw flag, or fails with OutOfBounds before any pixel
changes. -/
def Obligations.DrawInstructionDrawsSprite : Prop :=
  ∀ (x y : Reg) (n : Nat) (s : State), n < 16 →
    (s.i.toNat + n ≤ 4096 → ∃ t, exec (.drw x y n) s = .next t ∧
      OnlyWrites { regs := [VF], fb := true, redraw := true } s t ∧ t.redraw = true ∧
      (∀ r c, r < n → c < 8 → t.fb.target (s.reg x) (s.reg y) r c =
        (s.fb.target (s.reg x) (s.reg y) r c ^^ (s.mem.read (s.i.toNat + r)).getLsbD (7 - c))) ∧
      (∀ tr tc, (∀ r c, r < n → c < 8 → ¬ (tr = targetRow (s.reg y) r ∧ tc = targetCol (s.reg x) c)) →
        t.fb.get tr tc = s.fb.get tr tc) ∧
      (t.reg VF = 0 ∨ t.reg VF = 1) ∧
      (t.reg VF = 1 ↔ ∃ r c, r < n ∧ c < 8 ∧ (s.mem.read (s.i.toNat + r)).getLsbD (7 - c) = true ∧
        s.fb.target (s.reg x) (s.reg y) r c = true)) ∧
    (4096 < s.i.toNat + n → ∃ t, exec (.drw x y n) s = .next t ∧ t.cycleStatus = .error .outOfBounds ∧
      OnlyWrites { err := true } s t)

/-- R156, R157, R196: the read transactions change nothing; element 64·r + c of the snapshot is the pixel (r, c); the other
replies are the values they name. -/
def Obligations.ReadTransactionsChangeNothing : Prop :=
  ∀ s : State,
    (∃ pixels, transact .getDisplay s = .next (s, .display pixels) ∧ pixels.length = 2048 ∧
      ∀ (r : Fin 32) (c : Fin 64), pixels[64 * r.val + c.val]? = some (s.fb.get r c)) ∧
    transact .getRedraw s = .next (s, .redraw s.redraw) ∧
    (∃ d, transact .debugSnapshot s = .next (s, .snapshot d) ∧ d.pc = s.pc ∧ d.i = s.i ∧
      (∀ r : Reg, d.v[r] = s.reg r) ∧ d.dt = s.dt ∧ d.st = s.st) ∧
    (∃ t, transact .clearRedraw s = .next (t, .none) ∧ t.redraw = false ∧ OnlyWrites { redraw := true } s t)

/-! ## Keypad and timers -/

/-- R167, R168 (for VX above 15 the spec's decision D8, log 16): the key skips, on the value of VX. -/
def Obligations.SkipsTestTheKeyOfVx : Prop :=
  ∀ (x : Reg) (s : State),
    (∃ t, exec (.skp x) s = .next t ∧ OnlyWrites { pc := true } s t ∧
      ((s.reg x).toNat ≤ 15 → s.k.getLsbD (s.reg x).toNat = true → t.pc = s.pc + 2) ∧
      ((s.reg x).toNat ≤ 15 → s.k.getLsbD (s.reg x).toNat = false → t.pc = s.pc) ∧
      (16 ≤ (s.reg x).toNat → t.pc = s.pc)) ∧
    (∃ t, exec (.sknp x) s = .next t ∧ OnlyWrites { pc := true } s t ∧
      ((s.reg x).toNat ≤ 15 → s.k.getLsbD (s.reg x).toNat = true → t.pc = s.pc) ∧
      ((s.reg x).toNat ≤ 15 → s.k.getLsbD (s.reg x).toNat = false → t.pc = s.pc + 2) ∧
      (16 ≤ (s.reg x).toNat → t.pc = s.pc + 2))

/-- R169: `FX0A` with no key down takes `pc` back by 2 and leaves VX; with keys down VX receives the smallest index and `pc`
stays advanced. -/
def Obligations.WaitForKeyTakesLowest : Prop :=
  ∀ (x : Reg) (s : State),
    (s.k = 0 → ∃ t, exec (.ldVxK x) s = .next t ∧ t.pc = s.pc - 2 ∧ OnlyWrites { pc := true } s t) ∧
    (s.k ≠ 0 → ∃ t, exec (.ldVxK x) s = .next t ∧ OnlyWrites { regs := [x] } s t ∧ (t.reg x).toNat ≤ 15 ∧
      s.k.getLsbD (t.reg x).toNat = true ∧ ∀ n, n < (t.reg x).toNat → s.k.getLsbD n = false)

/-- R34, R216: while the core awaits a key a cycle leaves every item of the spec's state as it was; only the model's own
record of the random byte moves. -/
def Obligations.AwaitingKeyRepeats : Prop :=
  ∀ (rnd : Byte) (s : State), s.Healthy → s.AwaitingKey →
    cycle rnd s = .next { s with rnd := rnd, draws := s.draws + 1 }

/-- R198 (the convention D23): a program that has ended stays ended and changes nothing; only the model's own record of the
random byte moves. -/
def Obligations.EndedProgramChangesNothing : Prop :=
  ∀ (rnd : Byte) (s : State), s.Ended →
    cycle rnd s = .next { s with rnd := rnd, draws := s.draws + 1 } ∧
    State.Ended { s with rnd := rnd, draws := s.draws + 1 }

/-- R170, R171, R172: the three moves between a register and a timer. -/
def Obligations.TimerMovesCopy : Prop :=
  ∀ (x : Reg) (s : State),
    (∃ t, exec (.ldVxDt x) s = .next t ∧ t.reg x = s.dt ∧ OnlyWrites { regs := [x] } s t) ∧
    (∃ t, exec (.ldDtVx x) s = .next t ∧ t.dt = s.reg x ∧ OnlyWrites { dt := true } s t) ∧
    (∃ t, exec (.ldStVx x) s = .next t ∧ t.st = s.reg x ∧ OnlyWrites { st := true } s t)

/-- R190: a tick takes 1 from each timer that is not 0, changes nothing else, and answers whether the sound timer was above 0
before; so a sound timer loaded with n makes exactly the next n ticks answer 1. Of every state, a Faulted one too. -/
def Obligations.TickCountsBothTimersDown : Prop :=
  (∀ s : State, ∃ t b, transact .tick s = .next (t, .soundActive b) ∧
    t.dt.toNat = s.dt.toNat - 1 ∧ t.st.toNat = s.st.toNat - 1 ∧ (b = true ↔ s.st.toNat > 0) ∧
    OnlyWrites { dt := true, st := true } s t) ∧
  (∀ (s : State) (m : Nat), (tick ((fun u => (tick u).1)^[m] s)).2 = decide (m < s.st.toNat))

/-- R165: `set_key` writes one bit of the mask and nothing else. -/
def Obligations.SetKeyWritesOneBit : Prop :=
  ∀ (key : Fin 16) (p : Bool) (s : State), ∃ t, transact (.setKey key p) s = .next (t, .none) ∧
    t.k.getLsbD key.val = p ∧ (∀ n, n ≠ key.val → t.k.getLsbD n = s.k.getLsbD n) ∧ t = { s with k := t.k }

/-- R60 (that nothing else changes is the spec's decision D17, log 21): `load_program` writes the bytes from 0x200 on, or
answers ROMTooLarge and changes nothing. -/
def Obligations.LoadProgramWritesFromProgBase : Prop :=
  ∀ (bytes : List Byte) (s : State), s.mem.wf = true →
    (bytes.length ≤ 3584 → ∃ t, transact (.loadProgram bytes) s = .next (t, .status .ok) ∧
      (∀ k, k < bytes.length → bytes[k]? = some (t.mem.read (0x200 + k))) ∧
      (∀ a, ¬ (0x200 ≤ a ∧ a < 0x200 + bytes.length) → t.mem.read a = s.mem.read a) ∧ t = { s with mem := t.mem }) ∧
    (3584 < bytes.length → transact (.loadProgram bytes) s = .next (s, .status .romTooLarge))

/-! ## The whole machine -/

/-- Table T-R36: every instruction, whatever it does, writes nothing but what its column of the access matrix names. -/
def Obligations.InstructionsWriteOnlyTheirColumn : Prop :=
  ∀ (i : Instr) (s t : State), s.mem.wf = true → exec i s = .next t → OnlyWrites (mayWrite i s) s t

/-- R181 (a Faulted core first, and a fetch past the end, are the spec's decisions D5 and D7): which instruction raises
what, exhaustively, and what a cycle raises, in the order of R186; whatever happens the machine answers a next state. -/
def Obligations.ErrorsAreExactlyThoseListed : Prop :=
  (∀ (i : Instr) (s : State), s.Healthy → ∃ t, exec i s = .next t ∧ t.cycleStatus = statusOf (execError i s)) ∧
  (∀ (rnd : Byte) (s : State), ∃ t, cycle rnd s = .next t ∧ t.cycleStatus = statusOf (cycleError s))

/-- R184, R32 (the spec's decision D5): a failing cycle changes nothing but the latch and, unless the fetch failed, `pc`; the
latch tells the address and the word. -/
def Obligations.ErrorsArePrecise : Prop :=
  ∀ (rnd : Byte) (s t : State) (e : ErrRecord), s.Healthy → cycle rnd s = .next t → t.err = some e →
    e.atPc = s.pc ∧ e.word = fetchWord s ∧
    (fetchWord s = none → t = { s with err := some e }) ∧
    (fetchWord s ≠ none → { t with rnd := s.rnd, draws := s.draws } = { s with pc := s.pc + 2, err := some e })

/-- R182: whether a cycle fails, and how, depends on the latch, `pc`, the word there, the stack's depth, I and the capacity
alone; not on the random byte, the registers, the keypad, the timers or the framebuffer. -/
def Obligations.ErrorsDependOnFewInputs : Prop :=
  ∀ (rnd rnd' : Byte) (s t s' t' : State), SameErrorInputs s t → cycle rnd s = .next s' → cycle rnd' t = .next t' →
    s'.cycleStatus = t'.cycleStatus

/-- R100, "The argument `rnd` is used only by CXNN": two cycles from one state with different random bytes end alike but
for the model's own record of the byte, unless the word fetched is a CXNN. -/
def Obligations.RandomByteReachesOnlyRnd : Prop :=
  ∀ (rnd rnd' : Byte) (s t t' : State), (∀ x nn, fetchWord s ≠ some (encode (.rnd x nn))) →
    cycle rnd s = .next t → cycle rnd' s = .next t' → { t with rnd := s.rnd } = { t' with rnd := s.rnd }

/-- The invariant is kept by every step, from every state that meets it. -/
def Obligations.StepKeepsInvariant : Prop :=
  ∀ s t : State, s.Inv → step s = .next t → t.Inv

/-- Every list of transactions, from every state that meets the invariant, runs to its end and leaves the invariant, provided
the configurations it resets to are ones R6 allows. -/
def Obligations.RunsKeepInvariant : Prop :=
  ∀ (ts : List Transaction) (s : State), s.Inv → (∀ cfg font, .reset cfg font ∈ ts → cfg.wf = true) →
    ∃ t, runTransactions ts s = .next t ∧ t.Inv

/-- R185, R189 (the spec's decision D5): no list of transactions without a reset leaves the Faulted state, or changes a
register, I, `pc`, the stack or the framebuffer while in it. -/
def Obligations.OnlyResetLeavesFaulted : Prop :=
  ∀ (ts : List Transaction) (s : State) (e : ErrRecord), s.err = some e → (∀ cfg font, .reset cfg font ∉ ts) →
    ∃ t, runTransactions ts s = .next t ∧ t.err = some e ∧ t.v = s.v ∧ t.i = s.i ∧ t.pc = s.pc ∧ t.stack = s.stack ∧ t.fb = s.fb
end

