-- ==== Sys2Proof/Laws/Decode.lean ====
section
/-! SUPPORT. The fields of a packed word, the packings of a word's own fields, and the two bytes of a word
(30_encoding.md R81, R82; 20_memory.md R53). -/

namespace Sys2Proof

/-! Format NNN -/

/-- A packed word of format NNN as a number. -/
theorem toNat_packNNN (f : BitVec 4) (a : BitVec 12) : (packNNN f a).toNat = 4096 * f.toNat + a.toNat := by
  have := f.isLt
  rw [packNNN, BitVec.toNat_append, ← Nat.shiftLeft_add_eq_or_of_lt a.isLt, Nat.shiftLeft_eq]; omega

@[simp] theorem famOf_packNNN (f : BitVec 4) (a : BitVec 12) : famOf (packNNN f a) = f := by
  apply BitVec.eq_of_toNat_eq
  have := f.isLt; have := a.isLt
  simp only [famOf, BitVec.extractLsb'_toNat, toNat_packNNN, Nat.shiftRight_eq_div_pow]; omega

@[simp] theorem nnnOf_packNNN (f : BitVec 4) (a : BitVec 12) : nnnOf (packNNN f a) = a := by
  apply BitVec.eq_of_toNat_eq
  have := f.isLt; have := a.isLt
  simp only [nnnOf, BitVec.extractLsb'_toNat, toNat_packNNN, Nat.shiftRight_eq_div_pow]; omega

/-! Format XNN -/

/-- A packed word of format XNN as a number. -/
theorem toNat_packXNN (f : BitVec 4) (x : Reg) (nn : Byte) :
    (packXNN f x nn).toNat = 4096 * f.toNat + 256 * x.val + nn.toNat := by
  have := f.isLt; have := x.isLt; have hn := nn.isLt
  have hx : (BitVec.ofFin (w := 4) x ++ nn).toNat = 256 * x.val + nn.toNat := by
    rw [BitVec.toNat_append, ← Nat.shiftLeft_add_eq_or_of_lt hn, Nat.shiftLeft_eq, BitVec.toNat_ofFin]; omega
  rw [packXNN, BitVec.toNat_append, ← Nat.shiftLeft_add_eq_or_of_lt (BitVec.isLt _), Nat.shiftLeft_eq, hx]
  omega

@[simp] theorem famOf_packXNN (f : BitVec 4) (x : Reg) (nn : Byte) : famOf (packXNN f x nn) = f := by
  apply BitVec.eq_of_toNat_eq
  have := f.isLt; have := x.isLt; have := nn.isLt
  simp only [famOf, BitVec.extractLsb'_toNat, toNat_packXNN, Nat.shiftRight_eq_div_pow]; omega

@[simp] theorem xOf_packXNN (f : BitVec 4) (x : Reg) (nn : Byte) : xOf (packXNN f x nn) = x := by
  apply Fin.ext
  have := f.isLt; have := x.isLt; have := nn.isLt
  simp only [xOf, BitVec.val_toFin, BitVec.extractLsb'_toNat, toNat_packXNN, Nat.shiftRight_eq_div_pow]; omega

@[simp] theorem nnOf_packXNN (f : BitVec 4) (x : Reg) (nn : Byte) : nnOf (packXNN f x nn) = nn := by
  apply BitVec.eq_of_toNat_eq
  have := f.isLt; have := x.isLt; have := nn.isLt
  simp only [nnOf, BitVec.extractLsb'_toNat, toNat_packXNN, Nat.shiftRight_eq_div_pow]; omega

/-! Format XYN -/

/-- A packed word of format XYN as a number. -/
theorem toNat_packXYN (f : BitVec 4) (x y : Reg) (n : BitVec 4) :
    (packXYN f x y n).toNat = 4096 * f.toNat + 256 * x.val + 16 * y.val + n.toNat := by
  have := f.isLt; have := x.isLt; have := y.isLt; have hn := n.isLt
  have hy : (BitVec.ofFin (w := 4) y ++ n).toNat = 16 * y.val + n.toNat := by
    rw [BitVec.toNat_append, ← Nat.shiftLeft_add_eq_or_of_lt hn, Nat.shiftLeft_eq, BitVec.toNat_ofFin]; omega
  have hx : (BitVec.ofFin (w := 4) x ++ (BitVec.ofFin (w := 4) y ++ n)).toNat = 256 * x.val + 16 * y.val + n.toNat := by
    rw [BitVec.toNat_append, ← Nat.shiftLeft_add_eq_or_of_lt (BitVec.isLt _), Nat.shiftLeft_eq, hy, BitVec.toNat_ofFin]
    omega
  rw [packXYN, BitVec.toNat_append, ← Nat.shiftLeft_add_eq_or_of_lt (BitVec.isLt _), Nat.shiftLeft_eq, hx]
  omega

@[simp] theorem famOf_packXYN (f : BitVec 4) (x y : Reg) (n : BitVec 4) : famOf (packXYN f x y n) = f := by
  apply BitVec.eq_of_toNat_eq
  have := f.isLt; have := x.isLt; have := y.isLt; have := n.isLt
  simp only [famOf, BitVec.extractLsb'_toNat, toNat_packXYN, Nat.shiftRight_eq_div_pow]; omega

@[simp] theorem xOf_packXYN (f : BitVec 4) (x y : Reg) (n : BitVec 4) : xOf (packXYN f x y n) = x := by
  apply Fin.ext
  have := f.isLt; have := x.isLt; have := y.isLt; have := n.isLt
  simp only [xOf, BitVec.val_toFin, BitVec.extractLsb'_toNat, toNat_packXYN, Nat.shiftRight_eq_div_pow]; omega

@[simp] theorem yOf_packXYN (f : BitVec 4) (x y : Reg) (n : BitVec 4) : yOf (packXYN f x y n) = y := by
  apply Fin.ext
  have := f.isLt; have := x.isLt; have := y.isLt; have := n.isLt
  simp only [yOf, BitVec.val_toFin, BitVec.extractLsb'_toNat, toNat_packXYN, Nat.shiftRight_eq_div_pow]; omega

@[simp] theorem nOf_packXYN (f : BitVec 4) (x y : Reg) (n : BitVec 4) : nOf (packXYN f x y n) = n := by
  apply BitVec.eq_of_toNat_eq
  have := f.isLt; have := x.isLt; have := y.isLt; have := n.isLt
  simp only [nOf, BitVec.extractLsb'_toNat, toNat_packXYN, Nat.shiftRight_eq_div_pow]; omega

/-! A word is the packing of its own fields. -/

theorem toNat_famOf (w : Word) : (famOf w).toNat = w.toNat / 4096 := by
  have := w.isLt
  simp only [famOf, BitVec.extractLsb'_toNat, Nat.shiftRight_eq_div_pow]; omega

theorem val_xOf (w : Word) : (xOf w).val = w.toNat / 256 % 16 := by
  simp only [xOf, BitVec.val_toFin, BitVec.extractLsb'_toNat, Nat.shiftRight_eq_div_pow]

theorem val_yOf (w : Word) : (yOf w).val = w.toNat / 16 % 16 := by
  simp only [yOf, BitVec.val_toFin, BitVec.extractLsb'_toNat, Nat.shiftRight_eq_div_pow]

theorem toNat_nOf (w : Word) : (nOf w).toNat = w.toNat % 16 := by
  simp [nOf, BitVec.extractLsb'_toNat]

theorem toNat_nnOf (w : Word) : (nnOf w).toNat = w.toNat % 256 := by
  simp [nnOf, BitVec.extractLsb'_toNat]

theorem toNat_nnnOf (w : Word) : (nnnOf w).toNat = w.toNat % 4096 := by
  simp [nnnOf, BitVec.extractLsb'_toNat]

theorem packNNN_fields (w : Word) : packNNN (famOf w) (nnnOf w) = w := by
  apply BitVec.eq_of_toNat_eq
  have := w.isLt
  rw [toNat_packNNN, toNat_famOf, toNat_nnnOf]; omega

theorem packXNN_fields (w : Word) : packXNN (famOf w) (xOf w) (nnOf w) = w := by
  apply BitVec.eq_of_toNat_eq
  have := w.isLt
  rw [toNat_packXNN, toNat_famOf, val_xOf, toNat_nnOf]; omega

theorem packXYN_fields (w : Word) : packXYN (famOf w) (xOf w) (yOf w) (nOf w) = w := by
  apply BitVec.eq_of_toNat_eq
  have := w.isLt
  rw [toNat_packXYN, toNat_famOf, val_xOf, val_yOf, toNat_nOf]; omega

/-! The two bytes of a word. -/

theorem toNat_wordOf (hi lo : Byte) : (wordOf hi lo).toNat = 256 * hi.toNat + lo.toNat := by
  rw [wordOf, BitVec.toNat_append, ← Nat.shiftLeft_add_eq_or_of_lt lo.isLt, Nat.shiftLeft_eq]; omega

@[simp] theorem wordOf_bytes (w : Word) : wordOf (hiByte w) (loByte w) = w := by
  apply BitVec.eq_of_toNat_eq
  have := w.isLt
  rw [toNat_wordOf]
  simp only [hiByte, loByte, BitVec.extractLsb'_toNat, Nat.shiftRight_eq_div_pow]; omega

@[simp] theorem hiByte_wordOf (hi lo : Byte) : hiByte (wordOf hi lo) = hi := by
  apply BitVec.eq_of_toNat_eq
  have := hi.isLt; have := lo.isLt
  simp only [hiByte, BitVec.extractLsb'_toNat, toNat_wordOf, Nat.shiftRight_eq_div_pow]; omega

@[simp] theorem loByte_wordOf (hi lo : Byte) : loByte (wordOf hi lo) = lo := by
  apply BitVec.eq_of_toNat_eq
  have := hi.isLt; have := lo.isLt
  simp only [loByte, BitVec.extractLsb'_toNat, toNat_wordOf, Nat.shiftRight_eq_div_pow]; omega

/-! The masks of table T-R84 keep the fields they name. -/

/-- A bit of a packed word of format XYN. -/
theorem getLsbD_packXYN (f : BitVec 4) (x y : Reg) (n : BitVec 4) (i : Nat) :
    (packXYN f x y n).getLsbD i =
      if i < 12 then
        (if i < 8 then (if i < 4 then n.getLsbD i else (BitVec.ofFin (w := 4) y).getLsbD (i - 4))
          else (BitVec.ofFin (w := 4) x).getLsbD (i - 8))
      else f.getLsbD (i - 12) := by
  have h1 := BitVec.getLsbD_append (x := f) (y := BitVec.ofFin (w := 4) x ++ (BitVec.ofFin (w := 4) y ++ n)) (i := i)
  have h2 := BitVec.getLsbD_append (x := BitVec.ofFin (w := 4) x) (y := BitVec.ofFin (w := 4) y ++ n) (i := i)
  have h3 := BitVec.getLsbD_append (x := BitVec.ofFin (w := 4) y) (y := n) (i := i)
  rw [h3] at h2
  rw [h2] at h1
  exact h1

/-- A bit of a packed word of format XNN. -/
theorem getLsbD_packXNN (f : BitVec 4) (x : Reg) (nn : Byte) (i : Nat) :
    (packXNN f x nn).getLsbD i =
      if i < 12 then (if i < 8 then nn.getLsbD i else (BitVec.ofFin (w := 4) x).getLsbD (i - 8))
      else f.getLsbD (i - 12) := by
  have h1 := BitVec.getLsbD_append (x := f) (y := BitVec.ofFin (w := 4) x ++ nn) (i := i)
  have h2 := BitVec.getLsbD_append (x := BitVec.ofFin (w := 4) x) (y := nn) (i := i)
  rw [h2] at h1
  exact h1

theorem and_F000 (w : Word) : w &&& 0xF000 = packXYN (famOf w) 0 0 0 := by
  apply BitVec.eq_of_getLsbD_eq
  intro i hi
  rw [BitVec.getLsbD_and, getLsbD_packXYN]
  interval_cases i <;> simp [famOf]

theorem and_F00F (w : Word) : w &&& 0xF00F = packXYN (famOf w) 0 0 (nOf w) := by
  apply BitVec.eq_of_getLsbD_eq
  intro i hi
  rw [BitVec.getLsbD_and, getLsbD_packXYN]
  interval_cases i <;> simp [famOf, nOf]

theorem and_F0FF (w : Word) : w &&& 0xF0FF = packXNN (famOf w) 0 (nnOf w) := by
  apply BitVec.eq_of_getLsbD_eq
  intro i hi
  rw [BitVec.getLsbD_and, getLsbD_packXNN]
  interval_cases i <;> simp [famOf, nnOf]

theorem and_FFFF (w : Word) : w &&& 0xFFFF = w := by
  apply BitVec.eq_of_getLsbD_eq
  intro i hi
  rw [BitVec.getLsbD_and]
  interval_cases i <;> simp

/-- A nibble that is none of 0 to 14 is 15: the last case of R85's selection on FAM. -/
theorem nibble_eq_15 (b : BitVec 4) (h : b.toNat ∉ List.range 15) : b = 15#4 := by
  apply BitVec.eq_of_toNat_eq
  have := b.isLt
  simp only [List.mem_range] at h
  simp; omega

end Sys2Proof
end

