-- ==== Sys2Proof/Laws/Display.lean ====
section
/-! SUPPORT. The framebuffer: a pixel after a pixel write, frames equal pixel by pixel, and one step of R152's loops
(43_display.md). -/

namespace Sys2Proof.Machine

/-- A pixel after a pixel write. -/
theorem Frame.get_put (f : Frame) (r r' : Fin 32) (c c' : Fin 64) (b : Bool) :
    (f.put r c b).get r' c' = if r' = r ∧ c' = c then b else f.get r' c' := by
  simp only [Frame.get, Frame.put, Fin.getElem_fin, Vector.getElem_set]
  by_cases hr : r' = r
  · subst hr
    simp only [if_true, Vector.getElem_set, true_and, Fin.ext_iff, eq_comm]
  · have hv : ¬ r.val = r'.val := fun e => hr (Fin.ext e.symm)
    simp only [hv, if_false, hr, false_and]

/-- Frames that agree on every pixel are equal. -/
theorem Frame.ext_get {f g : Frame} (h : ∀ r c, f.get r c = g.get r c) : f = g := by
  apply Vector.ext; intro r hr
  apply Vector.ext; intro c hc
  exact h ⟨r, hr⟩ ⟨c, hc⟩

/-- Every pixel of the blank frame is unlit. -/
@[simp] theorem Frame.get_blank (r : Fin 32) (c : Fin 64) : Frame.blank.get r c = false := by
  simp [Frame.get, Frame.blank]

/-- The pixel one iteration of R152's loops writes. -/
theorem get_drawPixel (x y : Byte) (r : Nat) (b : Byte) (d : DrawState) (c : Nat) (r' : Fin 32) (c' : Fin 64) :
    (drawPixel x y r b d c).fb.get r' c' =
      if r' = targetRow y r ∧ c' = targetCol x c then d.fb.get r' c' ^^ b.getLsbD (7 - c) else d.fb.get r' c' := by
  simp only [drawPixel, Frame.get_put]
  split
  · rename_i h; rw [h.1, h.2]
  · rfl

/-- The collision after one iteration of R152's loops. -/
theorem collision_drawPixel (x y : Byte) (r : Nat) (b : Byte) (d : DrawState) (c : Nat) :
    (drawPixel x y r b d c).collision =
      (d.collision || (b.getLsbD (7 - c) && d.fb.get (targetRow y r) (targetCol x c))) := rfl

/-- Column offsets of one sprite row land on different columns (43_display.md R153 (a)). -/
theorem targetCol_inj {x : Byte} {c d : Nat} (hc : c < 64) (hd : d < 64) (h : targetCol x c = targetCol x d) : c = d := by
  simp only [targetCol, Fin.mk.injEq] at h; omega

/-- Row offsets of one sprite land on different rows (43_display.md R153 (a)). -/
theorem targetRow_inj {y : Byte} {c d : Nat} (hc : c < 32) (hd : d < 32) (h : targetRow y c = targetRow y d) : c = d := by
  simp only [targetRow, Fin.mk.injEq] at h; omega

/-- The element of a snapshot that is pixel (r, c) is number `64·r + c` (43_display.md R156). -/
theorem getElem?_flatMap_rows (l : List (Vector Bool 64)) (r c : Nat) (hc : c < 64) :
    (l.flatMap Vector.toList)[64 * r + c]? = (l[r]?).map fun row => row[c] := by
  induction l generalizing r with
  | nil => simp
  | cons row l ih =>
    rw [List.flatMap_cons]
    cases r with
    | zero => rw [List.getElem?_append_left (by simp; omega)]; simp
    | succ r =>
      rw [List.getElem?_append_right (by simp; omega), Vector.length_toList,
        show 64 * (r + 1) + c - 64 = 64 * r + c by omega, ih, List.getElem?_cons_succ]

end Sys2Proof.Machine
end

