-- ==== Sys2Proof/Laws/Memory.lean ====
section
/-! SUPPORT. Memory: a read after a write, the canonical form kept by every write, equal readings make equal memories, and
what the range primitives answer (20_memory.md R56, R57). -/

namespace Sys2Proof.Machine

/-- A weaker lower bound still holds. -/
theorem Memory.wfFrom_mono {lo lo' : Nat} {m : Memory} (h : Memory.wfFrom lo m = true) (hl : lo' ≤ lo) :
    Memory.wfFrom lo' m = true := by
  cases m with
  | nil => rfl
  | cons c m =>
    simp only [Memory.wfFrom, Bool.and_eq_true, decide_eq_true_eq] at h ⊢
    exact ⟨⟨⟨by omega, h.1.1.2⟩, h.1.2⟩, h.2⟩

/-- An address below every entry reads as unlisted. -/
theorem Memory.read_below {lo : Nat} {m : Memory} (h : Memory.wfFrom lo m = true) {a : Nat} (ha : a < lo) :
    m.read a = resetByte a := by
  induction m generalizing lo with
  | nil => rfl
  | cons c m ih =>
    obtain ⟨c, d⟩ := c
    simp only [Memory.wfFrom, Bool.and_eq_true, decide_eq_true_eq] at h
    rw [Memory.read, if_neg (by omega)]
    exact ih h.2 (by omega)

/-- A read after a write: the written byte at its address, every other address as before. -/
theorem Memory.read_write_of_wfFrom {lo : Nat} {m : Memory} (h : Memory.wfFrom lo m = true) (a : Nat) (b : Byte)
    (c : Nat) : (m.write a b).read c = if c = a then b else m.read c := by
  induction m generalizing lo with
  | nil =>
    by_cases hb : b = resetByte a
    · simp only [Memory.write, hb, if_true, Memory.read]; split <;> simp_all
    · simp only [Memory.write, hb, if_false, Memory.read]
  | cons e m ih =>
    obtain ⟨e, d⟩ := e
    simp only [Memory.wfFrom, Bool.and_eq_true, decide_eq_true_eq] at h
    have hm := h.2
    rcases Nat.lt_trichotomy a e with hae | rfl | hae
    · by_cases hb : b = resetByte a
      · have hr : Memory.read ((e, d) :: m) a = resetByte a := by
          rw [Memory.read, if_neg (by omega)]; exact Memory.read_below hm (by omega)
        simp only [Memory.write, hae, if_true, hb]
        split
        · subst_vars; exact hr
        · rfl
      · simp only [Memory.write, hae, if_true, hb, if_false]
        rw [Memory.read]
    · by_cases hb : b = resetByte a
      · simp only [Memory.write, lt_irrefl, if_false, hb, if_true]
        split
        · subst_vars; exact Memory.read_below hm (by omega)
        · rename_i hc; rw [Memory.read, if_neg hc]
      · simp only [Memory.write, lt_irrefl, if_false, hb, if_true, Memory.read]
        split <;> rfl
    · have h1 : ¬ a < e := by omega
      have h2 : ¬ a = e := by omega
      simp only [Memory.write, h1, h2, if_false, Memory.read]
      rw [ih hm]
      split
      · rw [if_neg (by omega)]
      · rfl

/-- A write at an address of the space keeps the form, above any bound the address meets. -/
theorem Memory.wfFrom_write {lo : Nat} {m : Memory} (h : Memory.wfFrom lo m = true) {a : Nat} (b : Byte) (hl : lo ≤ a)
    (ha : a < 4096) : Memory.wfFrom lo (m.write a b) = true := by
  induction m generalizing lo with
  | nil =>
    by_cases hb : b = resetByte a
    · simp only [Memory.write, hb, if_true, Memory.wfFrom]
    · simp only [Memory.write, hb, if_false, Memory.wfFrom, Bool.and_eq_true, decide_eq_true_eq]
      exact ⟨⟨⟨hl, ha⟩, hb⟩, trivial⟩
  | cons e m ih =>
    obtain ⟨e, d⟩ := e
    have h' := h
    simp only [Memory.wfFrom, Bool.and_eq_true, decide_eq_true_eq] at h
    have hm := h.2
    rcases Nat.lt_trichotomy a e with hae | rfl | hae
    · by_cases hb : b = resetByte a
      · simpa only [Memory.write, hae, if_true, hb] using h'
      · simp only [Memory.write, hae, if_true, hb, if_false, Memory.wfFrom, Bool.and_eq_true, decide_eq_true_eq]
        exact ⟨⟨⟨hl, ha⟩, hb⟩, ⟨⟨by omega, h.1.1.2⟩, h.1.2⟩, hm⟩
    · by_cases hb : b = resetByte a
      · simp only [Memory.write, lt_irrefl, if_false, hb, if_true]
        exact Memory.wfFrom_mono hm (by omega)
      · simp only [Memory.write, lt_irrefl, if_false, hb, if_true, Memory.wfFrom, Bool.and_eq_true, decide_eq_true_eq]
        exact ⟨⟨⟨hl, ha⟩, hb⟩, hm⟩
    · have h1 : ¬ a < e := by omega
      have h2 : ¬ a = e := by omega
      simp only [Memory.write, h1, h2, if_false, Memory.wfFrom, Bool.and_eq_true, decide_eq_true_eq]
      exact ⟨⟨⟨h.1.1.1, h.1.1.2⟩, h.1.2⟩, ih hm (by omega)⟩

/-- Every write in the space keeps the canonical form. -/
theorem Memory.wf_write {m : Memory} (h : m.wf = true) {a : Nat} (b : Byte) (ha : a < 4096) : (m.write a b).wf = true :=
  Memory.wfFrom_write h b (Nat.zero_le _) ha

/-- A read after a write, on a memory in its canonical form. -/
theorem Memory.read_write {m : Memory} (h : m.wf = true) (a : Nat) (b : Byte) (c : Nat) :
    (m.write a b).read c = if c = a then b else m.read c :=
  Memory.read_write_of_wfFrom h a b c

/-- Writing a list of bytes in the space keeps the canonical form. -/
theorem Memory.wf_writeList {m : Memory} (h : m.wf = true) {a : Nat} {bs : List Byte} (ha : a + bs.length ≤ 4096) :
    (m.writeList a bs).wf = true := by
  induction bs generalizing m a with
  | nil => exact h
  | cons b bs ih =>
    simp only [List.length_cons] at ha
    exact ih (Memory.wf_write h b (by omega)) (by omega)

/-- What an address reads as after a list of bytes is written (20_memory.md R57). -/
theorem Memory.read_writeList {m : Memory} (h : m.wf = true) {a : Nat} {bs : List Byte} (ha : a + bs.length ≤ 4096)
    (c : Nat) : (m.writeList a bs).read c = if a ≤ c ∧ c < a + bs.length then bs.getD (c - a) 0 else m.read c := by
  induction bs generalizing m a with
  | nil =>
    have hc : ¬ (a ≤ c ∧ c < a + ([] : List Byte).length) := by simp only [List.length_nil]; omega
    rw [if_neg hc]; rfl
  | cons b bs ih =>
    simp only [List.length_cons] at ha
    rw [Memory.writeList, ih (Memory.wf_write h b (by omega)) (by omega), Memory.read_write h]
    rcases Nat.lt_trichotomy c a with hc | rfl | hc
    · rw [if_neg (by omega), if_neg (by omega), if_neg (by omega)]
    · rw [if_neg (by omega), if_pos rfl, if_pos (by simp)]; simp
    · have hsub : c - a = (c - (a + 1)) + 1 := by omega
      rw [hsub, List.getD_cons_succ]
      by_cases hin : c < a + 1 + bs.length
      · rw [if_pos ⟨by omega, hin⟩, if_pos ⟨by omega, by simp only [List.length_cons]; omega⟩]
      · rw [if_neg (by omega), if_neg (by omega), if_neg (by simp only [List.length_cons]; omega)]

/-- The bytes of a range are as many as asked for. -/
@[simp] theorem Memory.length_readList (m : Memory) (a n : Nat) : (m.readList a n).length = n := by
  induction n generalizing a with
  | zero => rfl
  | succ n ih => simp [Memory.readList, ih]

/-- The k-th byte of a range is M[a + k] (20_memory.md R56). -/
theorem Memory.getElem?_readList (m : Memory) (a n k : Nat) (hk : k < n) :
    (m.readList a n)[k]? = some (m.read (a + k)) := by
  induction n generalizing a k with
  | zero => omega
  | succ n ih =>
    cases k with
    | zero => simp [Memory.readList]
    | succ k =>
      rw [Memory.readList, List.getElem?_cons_succ, ih (a + 1) k (by omega)]
      congr 2; omega

/-- Memories in canonical form that read alike are equal. -/
theorem Memory.eq_of_read_eq_from {lo : Nat} {m n : Memory} (hm : Memory.wfFrom lo m = true)
    (hn : Memory.wfFrom lo n = true) (h : ∀ a, m.read a = n.read a) : m = n := by
  induction m generalizing lo n with
  | nil =>
    cases n with
    | nil => rfl
    | cons e n =>
      obtain ⟨e, d⟩ := e
      simp only [Memory.wfFrom, Bool.and_eq_true, decide_eq_true_eq] at hn
      have := h e
      simp only [Memory.read, if_true] at this
      exact absurd this.symm hn.1.2
  | cons c m ih =>
    obtain ⟨c, b⟩ := c
    simp only [Memory.wfFrom, Bool.and_eq_true, decide_eq_true_eq] at hm
    cases n with
    | nil =>
      have := h c
      simp only [Memory.read, if_true] at this
      exact absurd this hm.1.2
    | cons e n =>
      obtain ⟨e, d⟩ := e
      simp only [Memory.wfFrom, Bool.and_eq_true, decide_eq_true_eq] at hn
      have hce : c = e := by
        rcases Nat.lt_trichotomy c e with hlt | rfl | hlt
        · have := h c
          rw [Memory.read, if_pos rfl, Memory.read, if_neg (by omega), Memory.read_below hn.2 (by omega)] at this
          exact absurd this hm.1.2
        · rfl
        · have := h e
          rw [Memory.read, if_neg (by omega), Memory.read, if_pos rfl, Memory.read_below hm.2 (by omega)] at this
          exact absurd this.symm hn.1.2
      subst hce
      have hbd : b = d := by simpa [Memory.read] using h c
      subst hbd
      rw [ih hm.2 hn.2 fun a => ?_]
      rcases Nat.lt_or_ge a (c + 1) with hac | hac
      · rw [Memory.read_below hm.2 hac, Memory.read_below hn.2 hac]
      · have := h a
        rwa [Memory.read, if_neg (by omega), Memory.read, if_neg (by omega)] at this

/-- Equal readings, equal memories: the canonical form has one list for each contents. -/
theorem Memory.eq_of_read_eq {m n : Memory} (hm : m.wf = true) (hn : n.wf = true) (h : ∀ a, m.read a = n.read a) : m = n :=
  Memory.eq_of_read_eq_from hm hn h

/-- MemRead answers exactly when the whole range is in memory (20_memory.md R56). -/
theorem memRead_eq_some {m : Memory} {a n : Nat} {bs : List Byte} :
    memRead m a n = some bs ↔ a + n ≤ 4096 ∧ bs = m.readList a n := by
  unfold memRead memSize
  split
  · rename_i h; simp only [reduceCtorEq, false_iff]; omega
  · rename_i h; simp only [Option.some.injEq]; exact ⟨fun e => ⟨by omega, e.symm⟩, fun e => e.2.symm⟩

/-- MemRead raises exactly when the range leaves memory (20_memory.md R56). -/
theorem memRead_eq_none {m : Memory} {a n : Nat} : memRead m a n = none ↔ 4096 < a + n := by
  unfold memRead memSize; split <;> simp_all

/-- MemWrite answers exactly when the whole range is in memory (20_memory.md R57). -/
theorem memWrite_eq_some {m m' : Memory} {a : Nat} {bs : List Byte} :
    memWrite m a bs = some m' ↔ a + bs.length ≤ 4096 ∧ m' = m.writeList a bs := by
  unfold memWrite memSize
  split
  · rename_i h; simp only [reduceCtorEq, false_iff]; omega
  · rename_i h; simp only [Option.some.injEq]; exact ⟨fun e => ⟨by omega, e.symm⟩, fun e => e.2.symm⟩

/-- MemWrite raises exactly when the range leaves memory (20_memory.md R57). -/
theorem memWrite_eq_none {m : Memory} {a : Nat} {bs : List Byte} :
    memWrite m a bs = none ↔ 4096 < a + bs.length := by
  unfold memWrite memSize; split <;> simp_all

/-- A MemWrite that answers keeps the canonical form. -/
theorem memWrite_wf {m m' : Memory} {a : Nat} {bs : List Byte} (h : m.wf = true) (hw : memWrite m a bs = some m') :
    m'.wf = true := by
  obtain ⟨hb, rfl⟩ := memWrite_eq_some.mp hw
  exact Memory.wf_writeList h hb

/-- The bytes of the font region as the default font has them (20_memory.md R55). -/
theorem resetByte_font {n : Nat} (h : n < 80) : resetByte (0x050 + n) = defaultFontBytes.getD n 0 := by
  unfold resetByte
  rw [if_pos (by simp only [fontBase, fontBytes]; omega), Nat.add_sub_cancel_left]

end Sys2Proof.Machine
end

