-- ==== Sys2Proof/Laws/State.lean ====
section
/-! SUPPORT. The small lemmas of the state's updates: one for each field of each update, by `rfl`, and the read of a register
after a write. -/

namespace Sys2Proof.Machine

/-- Reading a register after writing one (00_scope.md table T-R9). -/
@[simp] theorem State.reg_setReg (s : State) (r q : Reg) (b : Byte) :
    (s.setReg r b).reg q = if q = r then b else s.reg q := by
  simp only [State.reg, State.setReg, Fin.getElem_fin, Vector.getElem_set, Fin.ext_iff, eq_comm]

/-- With X = F the flag is what remains (41_alu.md R121). -/
@[simp] theorem State.reg_setRegFlag (s : State) (x q : Reg) (a f : Byte) :
    (s.setRegFlag x a f).reg q = if q = VF then f else if q = x then a else s.reg q := by
  simp [State.setRegFlag]

/-! `setReg` -/

@[simp] theorem State.setReg_i (s : State) (r : Reg) (b : Byte) : (s.setReg r b).i = s.i := rfl
@[simp] theorem State.setReg_pc (s : State) (r : Reg) (b : Byte) : (s.setReg r b).pc = s.pc := rfl
@[simp] theorem State.setReg_stack (s : State) (r : Reg) (b : Byte) : (s.setReg r b).stack = s.stack := rfl
@[simp] theorem State.setReg_dt (s : State) (r : Reg) (b : Byte) : (s.setReg r b).dt = s.dt := rfl
@[simp] theorem State.setReg_st (s : State) (r : Reg) (b : Byte) : (s.setReg r b).st = s.st := rfl
@[simp] theorem State.setReg_fb (s : State) (r : Reg) (b : Byte) : (s.setReg r b).fb = s.fb := rfl
@[simp] theorem State.setReg_redraw (s : State) (r : Reg) (b : Byte) : (s.setReg r b).redraw = s.redraw := rfl
@[simp] theorem State.setReg_k (s : State) (r : Reg) (b : Byte) : (s.setReg r b).k = s.k := rfl
@[simp] theorem State.setReg_mem (s : State) (r : Reg) (b : Byte) : (s.setReg r b).mem = s.mem := rfl
@[simp] theorem State.setReg_err (s : State) (r : Reg) (b : Byte) : (s.setReg r b).err = s.err := rfl
@[simp] theorem State.setReg_cfg (s : State) (r : Reg) (b : Byte) : (s.setReg r b).cfg = s.cfg := rfl
@[simp] theorem State.setReg_rnd (s : State) (r : Reg) (b : Byte) : (s.setReg r b).rnd = s.rnd := rfl
@[simp] theorem State.setReg_draws (s : State) (r : Reg) (b : Byte) : (s.setReg r b).draws = s.draws := rfl

/-! `setRegFlag` -/

@[simp] theorem State.setRegFlag_i (s : State) (x : Reg) (a f : Byte) : (s.setRegFlag x a f).i = s.i := rfl
@[simp] theorem State.setRegFlag_pc (s : State) (x : Reg) (a f : Byte) : (s.setRegFlag x a f).pc = s.pc := rfl
@[simp] theorem State.setRegFlag_stack (s : State) (x : Reg) (a f : Byte) : (s.setRegFlag x a f).stack = s.stack := rfl
@[simp] theorem State.setRegFlag_dt (s : State) (x : Reg) (a f : Byte) : (s.setRegFlag x a f).dt = s.dt := rfl
@[simp] theorem State.setRegFlag_st (s : State) (x : Reg) (a f : Byte) : (s.setRegFlag x a f).st = s.st := rfl
@[simp] theorem State.setRegFlag_fb (s : State) (x : Reg) (a f : Byte) : (s.setRegFlag x a f).fb = s.fb := rfl
@[simp] theorem State.setRegFlag_redraw (s : State) (x : Reg) (a f : Byte) : (s.setRegFlag x a f).redraw = s.redraw := rfl
@[simp] theorem State.setRegFlag_k (s : State) (x : Reg) (a f : Byte) : (s.setRegFlag x a f).k = s.k := rfl
@[simp] theorem State.setRegFlag_mem (s : State) (x : Reg) (a f : Byte) : (s.setRegFlag x a f).mem = s.mem := rfl
@[simp] theorem State.setRegFlag_err (s : State) (x : Reg) (a f : Byte) : (s.setRegFlag x a f).err = s.err := rfl
@[simp] theorem State.setRegFlag_cfg (s : State) (x : Reg) (a f : Byte) : (s.setRegFlag x a f).cfg = s.cfg := rfl
@[simp] theorem State.setRegFlag_rnd (s : State) (x : Reg) (a f : Byte) : (s.setRegFlag x a f).rnd = s.rnd := rfl
@[simp] theorem State.setRegFlag_draws (s : State) (x : Reg) (a f : Byte) : (s.setRegFlag x a f).draws = s.draws := rfl

/-! `advance` -/

@[simp] theorem State.advance_reg (s : State) (q : Reg) : (s.advance).reg q = s.reg q := rfl
@[simp] theorem State.advance_i (s : State) : (s.advance).i = s.i := rfl
@[simp] theorem State.advance_pc (s : State) : (s.advance).pc = s.pc + 2 := rfl
@[simp] theorem State.advance_stack (s : State) : (s.advance).stack = s.stack := rfl
@[simp] theorem State.advance_dt (s : State) : (s.advance).dt = s.dt := rfl
@[simp] theorem State.advance_st (s : State) : (s.advance).st = s.st := rfl
@[simp] theorem State.advance_fb (s : State) : (s.advance).fb = s.fb := rfl
@[simp] theorem State.advance_redraw (s : State) : (s.advance).redraw = s.redraw := rfl
@[simp] theorem State.advance_k (s : State) : (s.advance).k = s.k := rfl
@[simp] theorem State.advance_mem (s : State) : (s.advance).mem = s.mem := rfl
@[simp] theorem State.advance_err (s : State) : (s.advance).err = s.err := rfl
@[simp] theorem State.advance_cfg (s : State) : (s.advance).cfg = s.cfg := rfl
@[simp] theorem State.advance_rnd (s : State) : (s.advance).rnd = s.rnd := rfl
@[simp] theorem State.advance_draws (s : State) : (s.advance).draws = s.draws := rfl

/-! `jumpTo` -/

@[simp] theorem State.jumpTo_reg (s : State) (a : Word) (q : Reg) : (s.jumpTo a).reg q = s.reg q := rfl
@[simp] theorem State.jumpTo_i (s : State) (a : Word) : (s.jumpTo a).i = s.i := rfl
@[simp] theorem State.jumpTo_pc (s : State) (a : Word) : (s.jumpTo a).pc = a := rfl
@[simp] theorem State.jumpTo_stack (s : State) (a : Word) : (s.jumpTo a).stack = s.stack := rfl
@[simp] theorem State.jumpTo_dt (s : State) (a : Word) : (s.jumpTo a).dt = s.dt := rfl
@[simp] theorem State.jumpTo_st (s : State) (a : Word) : (s.jumpTo a).st = s.st := rfl
@[simp] theorem State.jumpTo_fb (s : State) (a : Word) : (s.jumpTo a).fb = s.fb := rfl
@[simp] theorem State.jumpTo_redraw (s : State) (a : Word) : (s.jumpTo a).redraw = s.redraw := rfl
@[simp] theorem State.jumpTo_k (s : State) (a : Word) : (s.jumpTo a).k = s.k := rfl
@[simp] theorem State.jumpTo_mem (s : State) (a : Word) : (s.jumpTo a).mem = s.mem := rfl
@[simp] theorem State.jumpTo_err (s : State) (a : Word) : (s.jumpTo a).err = s.err := rfl
@[simp] theorem State.jumpTo_cfg (s : State) (a : Word) : (s.jumpTo a).cfg = s.cfg := rfl
@[simp] theorem State.jumpTo_rnd (s : State) (a : Word) : (s.jumpTo a).rnd = s.rnd := rfl
@[simp] theorem State.jumpTo_draws (s : State) (a : Word) : (s.jumpTo a).draws = s.draws := rfl

/-! `withRandom` -/

@[simp] theorem State.withRandom_reg (s : State) (b : Byte) (q : Reg) : (s.withRandom b).reg q = s.reg q := rfl
@[simp] theorem State.withRandom_i (s : State) (b : Byte) : (s.withRandom b).i = s.i := rfl
@[simp] theorem State.withRandom_pc (s : State) (b : Byte) : (s.withRandom b).pc = s.pc := rfl
@[simp] theorem State.withRandom_stack (s : State) (b : Byte) : (s.withRandom b).stack = s.stack := rfl
@[simp] theorem State.withRandom_dt (s : State) (b : Byte) : (s.withRandom b).dt = s.dt := rfl
@[simp] theorem State.withRandom_st (s : State) (b : Byte) : (s.withRandom b).st = s.st := rfl
@[simp] theorem State.withRandom_fb (s : State) (b : Byte) : (s.withRandom b).fb = s.fb := rfl
@[simp] theorem State.withRandom_redraw (s : State) (b : Byte) : (s.withRandom b).redraw = s.redraw := rfl
@[simp] theorem State.withRandom_k (s : State) (b : Byte) : (s.withRandom b).k = s.k := rfl
@[simp] theorem State.withRandom_mem (s : State) (b : Byte) : (s.withRandom b).mem = s.mem := rfl
@[simp] theorem State.withRandom_err (s : State) (b : Byte) : (s.withRandom b).err = s.err := rfl
@[simp] theorem State.withRandom_cfg (s : State) (b : Byte) : (s.withRandom b).cfg = s.cfg := rfl
@[simp] theorem State.withRandom_rnd (s : State) (b : Byte) : (s.withRandom b).rnd = b := rfl
@[simp] theorem State.withRandom_draws (s : State) (b : Byte) : (s.withRandom b).draws = s.draws + 1 := rfl

/-! `skipIf` -/

/-- A skip changes the program counter alone (40_cycle_and_control_flow.md R105). -/
theorem State.skipIf_eq (s : State) (c : Bool) : s.skipIf c = { s with pc := if c then s.pc + 2 else s.pc } := by
  cases c <;> rfl

@[simp] theorem State.skipIf_reg (s : State) (c : Bool) (q : Reg) : (s.skipIf c).reg q = s.reg q := by
  rw [skipIf_eq]; rfl
@[simp] theorem State.skipIf_i (s : State) (c : Bool) : (s.skipIf c).i = s.i := by
  rw [skipIf_eq]
@[simp] theorem State.skipIf_pc (s : State) (c : Bool) : (s.skipIf c).pc = if c then s.pc + 2 else s.pc := by
  rw [skipIf_eq]
@[simp] theorem State.skipIf_stack (s : State) (c : Bool) : (s.skipIf c).stack = s.stack := by
  rw [skipIf_eq]
@[simp] theorem State.skipIf_dt (s : State) (c : Bool) : (s.skipIf c).dt = s.dt := by
  rw [skipIf_eq]
@[simp] theorem State.skipIf_st (s : State) (c : Bool) : (s.skipIf c).st = s.st := by
  rw [skipIf_eq]
@[simp] theorem State.skipIf_fb (s : State) (c : Bool) : (s.skipIf c).fb = s.fb := by
  rw [skipIf_eq]
@[simp] theorem State.skipIf_redraw (s : State) (c : Bool) : (s.skipIf c).redraw = s.redraw := by
  rw [skipIf_eq]
@[simp] theorem State.skipIf_k (s : State) (c : Bool) : (s.skipIf c).k = s.k := by
  rw [skipIf_eq]
@[simp] theorem State.skipIf_mem (s : State) (c : Bool) : (s.skipIf c).mem = s.mem := by
  rw [skipIf_eq]
@[simp] theorem State.skipIf_err (s : State) (c : Bool) : (s.skipIf c).err = s.err := by
  rw [skipIf_eq]
@[simp] theorem State.skipIf_cfg (s : State) (c : Bool) : (s.skipIf c).cfg = s.cfg := by
  rw [skipIf_eq]
@[simp] theorem State.skipIf_rnd (s : State) (c : Bool) : (s.skipIf c).rnd = s.rnd := by
  rw [skipIf_eq]
@[simp] theorem State.skipIf_draws (s : State) (c : Bool) : (s.skipIf c).draws = s.draws := by
  rw [skipIf_eq]

/-! Reads of registers through updates of other fields. -/

@[simp] theorem State.reg_with_i (s : State) (a : Word) (q : Reg) : ({ s with i := a } : State).reg q = s.reg q := rfl
@[simp] theorem State.reg_with_pc (s : State) (a : Word) (q : Reg) : ({ s with pc := a } : State).reg q = s.reg q := rfl
@[simp] theorem State.reg_with_stack (s : State) (a : List Word) (q : Reg) : ({ s with stack := a } : State).reg q = s.reg q := rfl
@[simp] theorem State.reg_with_dt (s : State) (a : Byte) (q : Reg) : ({ s with dt := a } : State).reg q = s.reg q := rfl
@[simp] theorem State.reg_with_st (s : State) (a : Byte) (q : Reg) : ({ s with st := a } : State).reg q = s.reg q := rfl
@[simp] theorem State.reg_with_k (s : State) (a : Word) (q : Reg) : ({ s with k := a } : State).reg q = s.reg q := rfl
@[simp] theorem State.reg_with_mem (s : State) (a : Memory) (q : Reg) : ({ s with mem := a } : State).reg q = s.reg q := rfl
@[simp] theorem State.reg_with_err (s : State) (e : Option ErrRecord) (q : Reg) : ({ s with err := e } : State).reg q = s.reg q := rfl
@[simp] theorem State.reg_with_display (s : State) (f : Frame) (b : Bool) (q : Reg) :
    ({ s with fb := f, redraw := b } : State).reg q = s.reg q := rfl

/-- Every register of the state after reset is 0 (10_state.md R35). -/
@[simp] theorem State.reset_reg (q : Reg) : State.reset.reg q = 0 := by
  simp [State.reg, State.reset]

end Sys2Proof.Machine
end

