-- ==== Sys2Proof/Laws/Ops.lean ====
section
/-! SUPPORT. What each shared operation can do: the stack, the error latch, the fetch, the placing of a word, the register
block, and the frame of a register write. -/

namespace Sys2Proof.Machine

/-- A push answers exactly when the stack is not full, with the value on top (10_state.md R25). -/
theorem push_eq_some {c : Capacity} {st st' : List Word} {a : Word} :
    push c st a = some st' ↔ c ≠ .bounded st.length ∧ st' = a :: st := by
  cases c with
  | bounded n =>
    by_cases h : st.length = n
    · simp [push, stackFull, h]
    · have h' : ¬ n = st.length := fun e => h e.symm
      simp [push, stackFull, h, h', eq_comm]
  | unbounded => simp [push, stackFull, eq_comm]

/-- A push raises exactly when the stack is full (10_state.md R25). -/
theorem push_eq_none {c : Capacity} {st : List Word} {a : Word} :
    push c st a = none ↔ c = .bounded st.length := by
  cases c with
  | bounded n =>
    by_cases h : st.length = n
    · simp [push, stackFull, h]
    · have h' : ¬ n = st.length := fun e => h e.symm
      simp [push, stackFull, h, h']
  | unbounded => simp [push, stackFull]

/-- The record an executing instruction's error latches (10_state.md R32). -/
theorem raiseExec_eq (i : Instr) (k : ErrorKind) (range : Option (Nat × Nat)) (s : State) :
    raiseExec i k range s = failsWith ⟨k, s.pc - 2, some (encode i), range⟩ s := rfl

/-- The record an out-of-bounds range latches (60_exceptions.md table T-R180). -/
theorem raiseBounds_eq (i : Instr) (a n : Nat) (s : State) :
    raiseBounds i a n s = failsWith ⟨.outOfBounds, s.pc - 2, some (encode i), some (a, n)⟩ s := rfl

/-- The fetch reads the two bytes at `pc`, high byte first (20_memory.md R53). -/
theorem fetchWord_of_le {s : State} (h : s.pc.toNat ≤ 4094) :
    fetchWord s = some (wordOf (s.mem.read s.pc.toNat) (s.mem.read (s.pc.toNat + 1))) := by
  have : memRead s.mem s.pc.toNat insnBytes = some (s.mem.readList s.pc.toNat 2) :=
    memRead_eq_some.mpr ⟨by simp only [insnBytes]; omega, rfl⟩
  rw [fetchWord, this]; rfl

/-- The fetch fails exactly when `pc + 2 > 4096` (40_cycle_and_control_flow.md R101). -/
theorem fetchWord_eq_none {s : State} : fetchWord s = none ↔ 4095 ≤ s.pc.toNat := by
  rcases Nat.lt_or_ge 4094 s.pc.toNat with h | h
  · have : memRead s.mem s.pc.toNat insnBytes = none := memRead_eq_none.mpr (by simp only [insnBytes]; omega)
    rw [fetchWord, this]; simp; omega
  · rw [fetchWord_of_le h]; simp; omega

/-- A fetch that answers read inside memory. -/
theorem pc_le_of_fetchWord {s : State} {w : Word} (h : fetchWord s = some w) : s.pc.toNat ≤ 4094 := by
  by_contra hc
  rw [fetchWord_eq_none.mpr (by omega)] at h
  exact absurd h (by simp)

/-- The advance of a fetched word does not wrap (40_cycle_and_control_flow.md R102). -/
theorem toNat_advance_pc {s : State} (h : s.pc.toNat ≤ 4094) : (s.pc + 2).toNat = s.pc.toNat + 2 := by
  rw [BitVec.toNat_add]; simp; omega

/-- The address a cycle started at, from the advanced `pc` (log 4). -/
@[simp] theorem advance_pc_sub (a : Word) : a + 2 - 2 = a := by
  simp

/-- The word placed for the next fetch is the word it reads (log 12). -/
theorem fetchWord_placeNext {s : State} (h : s.mem.wf = true) (w : Word) : fetchWord (s.placeNext w) = some w := by
  have key : ∀ a : Word, a.toNat ≤ 4094 → ((s.placeNext w).pc = a) → (s.placeNext w).mem = s.mem.placeWord a.toNat w →
      fetchWord (s.placeNext w) = some w := by
    intro a ha hp hm
    have hw : (s.mem.write a.toNat (hiByte w)).wf = true := Memory.wf_write h _ (by omega)
    rw [fetchWord_of_le (by rw [hp]; exact ha), hp, hm, Memory.placeWord, Memory.read_write hw, Memory.read_write hw,
      if_neg (by omega), if_pos rfl, Memory.read_write h, if_pos rfl, wordOf_bytes]
  by_cases hs : s.pc.toNat + insnBytes ≤ memSize
  · refine key s.pc (by simp only [insnBytes, memSize] at hs; omega) ?_ ?_ <;> simp only [State.placeNext, if_pos hs]
  · refine key (BitVec.ofNat 16 progBase) (by simp [progBase]) ?_ ?_ <;> simp only [State.placeNext, if_neg hs]

/-- The register block has X + 1 bytes (42_index_and_memory.md R144). -/
@[simp] theorem length_regBlock (x : Reg) (s : State) : (regBlock x s).length = x.val + 1 := by
  have := x.isLt
  simp only [regBlock, blockCount, List.length_take, Vector.length_toList]; omega

/-- The k-th byte of the register block is V_k (42_index_and_memory.md R144). -/
theorem getD_regBlock (x : Reg) (s : State) (k : Nat) (hk : k < 16) (hx : k ≤ x.val) :
    (regBlock x s).getD k 0 = s.reg ⟨k, hk⟩ := by
  have hl : k < (regBlock x s).length := by rw [length_regBlock]; omega
  rw [List.getD_eq_getElem _ _ hl]
  simp [regBlock, State.reg]

/-- What a register holds after a block of bytes is loaded from register `k` on (42_index_and_memory.md R145). -/
theorem reg_loadRegs (s : State) (k : Nat) (bs : List Byte) (r : Reg) :
    (loadRegs s k bs).reg r = if k ≤ r.val ∧ r.val < k + bs.length then bs.getD (r.val - k) 0 else s.reg r := by
  induction bs generalizing s k with
  | nil =>
    have hc : ¬ (k ≤ r.val ∧ r.val < k + ([] : List Byte).length) := by simp only [List.length_nil]; omega
    rw [if_neg hc]; rfl
  | cons b bs ih =>
    have hr := r.isLt
    rw [loadRegs, ih]
    rcases Nat.lt_trichotomy r.val k with h | h | h
    · rw [if_neg (by omega), if_neg (by omega)]
      split
      · rw [State.reg_setReg, if_neg (by rw [Fin.ext_iff]; exact Nat.ne_of_lt h)]
      · rfl
    · have hk : k < 16 := by omega
      rw [if_neg (by omega), if_pos (by simp only [List.length_cons]; omega), dif_pos hk, State.reg_setReg,
        if_pos (Fin.ext h), h, Nat.sub_self]; rfl
    · have hsub : r.val - k = (r.val - (k + 1)) + 1 := by omega
      rw [hsub, List.getD_cons_succ]
      by_cases hin : r.val < k + 1 + bs.length
      · rw [if_pos ⟨by omega, hin⟩, if_pos ⟨by omega, by simp only [List.length_cons]; omega⟩]
      · rw [if_neg (by omega), if_neg (by simp only [List.length_cons]; omega)]
        split
        · rw [State.reg_setReg, if_neg (by rw [Fin.ext_iff]; exact Nat.ne_of_gt h)]
        · rfl

/-- A block load changes the registers alone. -/
theorem loadRegs_eq (s : State) (k : Nat) (bs : List Byte) : loadRegs s k bs = { s with v := (loadRegs s k bs).v } := by
  induction bs generalizing s k with
  | nil => rfl
  | cons b bs ih =>
    rw [loadRegs]
    split
    · rw [ih]; rfl
    · exact ih s (k + 1)

/-- The frame of an unchanged state. -/
theorem OnlyWrites.rfl (w : Writes) (s : State) : OnlyWrites w s s :=
  ⟨fun _ _ => Eq.refl _, fun _ => Eq.refl _, fun _ => Eq.refl _, fun _ => Eq.refl _, fun _ => Eq.refl _, fun _ => Eq.refl _,
    fun _ => Eq.refl _, fun _ => Eq.refl _, fun _ => Eq.refl _, fun _ _ => Eq.refl _, Eq.refl _, Eq.refl _, Eq.refl _, Eq.refl _⟩

/-- The frame of a register write. -/
theorem OnlyWrites.setReg (s : State) (r : Reg) (b : Byte) : OnlyWrites { regs := [r] } s (s.setReg r b) := by
  constructor <;> simp
  intro q hq hr; exact absurd hr hq

/-- The frame of a result and a flag. -/
theorem OnlyWrites.setRegFlag (s : State) (x : Reg) (a f : Byte) :
    OnlyWrites { regs := [x, VF] } s (s.setRegFlag x a f) := by
  constructor <;> simp
  intro q hq hf; simp [hq, hf]

/-- The frame of a jump. -/
theorem OnlyWrites.jumpTo (s : State) (a : Word) : OnlyWrites { pc := true } s (s.jumpTo a) := by
  constructor <;> simp

/-- The frame of a skip. -/
theorem OnlyWrites.skipIf (s : State) (c : Bool) : OnlyWrites { pc := true } s (s.skipIf c) := by
  constructor <;> simp

end Sys2Proof.Machine
end

