-- ==== Sys2Proof/Laws/Exec.lean ====
section
/-! SUPPORT. What an instruction can do: one equation for each branch of a meaning that has more than one, and one inversion
lemma for `exec` as a whole (it fails and sets the latch, or it completes and leaves the latch). -/

namespace Sys2Proof.Machine

theorem execRet_nil {s : State} (h : s.stack = []) :
    execRet s = failsWith ⟨.stackUnderflow, s.pc - 2, some (encode .ret), none⟩ s := by
  simp only [execRet, h, pop, raiseExec_eq]

theorem execRet_cons {s : State} {top : Word} {rest : List Word} (h : s.stack = top :: rest) :
    execRet s = .next { s with stack := rest, pc := top } := by
  simp only [execRet, h, pop, State.jumpTo]

theorem execCall_full {s : State} (nnn : BitVec 12) (h : s.cfg.stackCapacity = .bounded s.stack.length) :
    execCall nnn s = failsWith ⟨.stackOverflow, s.pc - 2, some (encode (.call nnn)), none⟩ s := by
  simp only [execCall, push_eq_none.mpr h, raiseExec_eq]

theorem execCall_room {s : State} (nnn : BitVec 12) (h : s.cfg.stackCapacity ≠ .bounded s.stack.length) :
    execCall nnn s = .next { s with stack := s.pc :: s.stack, pc := zextNNN nnn } := by
  simp only [execCall, push_eq_some.mpr ⟨h, rfl⟩, State.jumpTo]

theorem execLdB_out {s : State} (x : Reg) (h : 4096 < s.i.toNat + 3) :
    execLdB x s = failsWith ⟨.outOfBounds, s.pc - 2, some (encode (.ldB x)), some (s.i.toNat, 3)⟩ s := by
  have hn : memWrite s.mem s.i.toNat (bcdDigits (s.reg x)) = none := memWrite_eq_none.mpr h
  simp only [execLdB, State.base, hn, raiseBounds_eq]

theorem execLdB_in {s : State} (x : Reg) (h : s.i.toNat + 3 ≤ 4096) :
    execLdB x s = .next { s with mem := s.mem.writeList s.i.toNat (bcdDigits (s.reg x)) } := by
  have hs : memWrite s.mem s.i.toNat (bcdDigits (s.reg x)) = some (s.mem.writeList s.i.toNat (bcdDigits (s.reg x))) :=
    memWrite_eq_some.mpr ⟨h, rfl⟩
  simp only [execLdB, State.base, hs]

theorem execStRegs_out {s : State} (x : Reg) (h : 4096 < s.i.toNat + x.val + 1) :
    execStRegs x s =
      failsWith ⟨.outOfBounds, s.pc - 2, some (encode (.stRegs x)), some (s.i.toNat, x.val + 1)⟩ s := by
  have hn : memWrite s.mem s.i.toNat (regBlock x s) = none :=
    memWrite_eq_none.mpr (by rw [length_regBlock]; exact h)
  simp only [execStRegs, State.base, hn, raiseBounds_eq, blockCount]

theorem execStRegs_in {s : State} (x : Reg) (h : s.i.toNat + x.val + 1 ≤ 4096) :
    execStRegs x s = .next { s with mem := s.mem.writeList s.i.toNat (regBlock x s) } := by
  have hs : memWrite s.mem s.i.toNat (regBlock x s) = some (s.mem.writeList s.i.toNat (regBlock x s)) :=
    memWrite_eq_some.mpr ⟨by rw [length_regBlock]; exact h, rfl⟩
  simp only [execStRegs, State.base, hs]

theorem execLdRegs_out {s : State} (x : Reg) (h : 4096 < s.i.toNat + x.val + 1) :
    execLdRegs x s =
      failsWith ⟨.outOfBounds, s.pc - 2, some (encode (.ldRegs x)), some (s.i.toNat, x.val + 1)⟩ s := by
  have hn : memRead s.mem s.i.toNat (x.val + 1) = none := memRead_eq_none.mpr h
  simp only [execLdRegs, State.base, blockCount, hn, raiseBounds_eq]

theorem execLdRegs_in {s : State} (x : Reg) (h : s.i.toNat + x.val + 1 ≤ 4096) :
    execLdRegs x s = .next (loadRegs s 0 (s.mem.readList s.i.toNat (x.val + 1))) := by
  have hs : memRead s.mem s.i.toNat (x.val + 1) = some (s.mem.readList s.i.toNat (x.val + 1)) :=
    memRead_eq_some.mpr ⟨h, rfl⟩
  simp only [execLdRegs, State.base, blockCount, hs]

/-- A register after a block load from memory (42_index_and_memory.md R145). -/
theorem reg_loadRegs_readList (s : State) (a : Nat) (x r : Reg) :
    (loadRegs s 0 (s.mem.readList a (x.val + 1))).reg r = if r ≤ x then s.mem.read (a + r.val) else s.reg r := by
  rw [reg_loadRegs, Memory.length_readList]
  by_cases hr : r ≤ x
  · have hv : r.val ≤ x.val := hr
    rw [if_pos (by omega), if_pos hr, List.getD_eq_getElem?_getD, Nat.sub_zero,
      Memory.getElem?_readList _ _ _ _ (by omega)]
    rfl
  · have hv : ¬ r.val ≤ x.val := hr
    rw [if_neg (by omega), if_neg hr]

theorem execDrw_out {s : State} (x y : Reg) (n : Nat) (h : 4096 < s.i.toNat + n) :
    execDrw x y n s = failsWith ⟨.outOfBounds, s.pc - 2, some (encode (.drw x y n)), some (s.i.toNat, n)⟩ s := by
  simp only [execDrw, State.base, memRead_eq_none.mpr h, raiseBounds_eq]

theorem execDrw_in {s : State} (x y : Reg) (n : Nat) (h : s.i.toNat + n ≤ 4096) :
    execDrw x y n s =
      .next ({ s with
        fb := (draw (s.reg x) (s.reg y) (s.mem.readList s.i.toNat n) s.fb).fb, redraw := true }.setReg VF
          (collisionFlag (draw (s.reg x) (s.reg y) (s.mem.readList s.i.toNat n) s.fb).collision)) := by
  simp only [execDrw, State.base, memRead_eq_some.mpr ⟨h, rfl⟩]

theorem execLdVxK_none {s : State} (x : Reg) (h : firstKeyPressed s.k = none) :
    execLdVxK x s = .next { s with pc := s.pc - 2 } := by
  simp only [execLdVxK, h]

theorem execLdVxK_some {s : State} (x : Reg) {n : Nat} (h : firstKeyPressed s.k = some n) :
    execLdVxK x s = .next (s.setReg x (BitVec.ofNat 8 n)) := by
  simp only [execLdVxK, h]

/-- No key is found exactly when none is down (44_keypad_and_timer_access.md R166). -/
theorem firstKeyPressed_eq_none {k : Word} : firstKeyPressed k = none ↔ k = 0 := by
  constructor
  · intro h
    simp only [firstKeyPressed, List.find?_eq_none, List.mem_range, isPressed] at h
    apply BitVec.eq_of_getLsbD_eq
    intro i hi
    simpa using h i hi
  · rintro rfl; decide

/-- The key found is down, it is one of the sixteen, and no smaller one is down (44_keypad_and_timer_access.md R166). -/
theorem firstKeyPressed_eq_some {k : Word} {n : Nat} (h : firstKeyPressed k = some n) :
    n < 16 ∧ k.getLsbD n = true ∧ ∀ m, m < n → k.getLsbD m = false := by
  rw [firstKeyPressed, List.find?_range_eq_some] at h
  obtain ⟨hp, hm, hlt⟩ := h
  exact ⟨by simpa using hm, hp, fun m hm => by simpa [isPressed] using hlt m hm⟩

/-- What an instruction can do with the error latch: it raises the error R181 names and changes the latch alone, or it
completes and leaves the latch. It never stops the machine. -/
theorem exec_cases (i : Instr) (s : State) :
    (∃ k range, execError i s = some k ∧ exec i s = failsWith ⟨k, s.pc - 2, some (encode i), range⟩ s) ∨
    (∃ t, execError i s = none ∧ exec i s = .next t ∧ t.err = s.err) := by
  cases i
  case ret =>
    cases h : s.stack with
    | nil => exact .inl ⟨_, _, by simp [execError, h], execRet_nil h⟩
    | cons top rest => exact .inr ⟨_, by simp [execError, h], execRet_cons h, rfl⟩
  case call nnn =>
    by_cases h : s.cfg.stackCapacity = .bounded s.stack.length
    · exact .inl ⟨_, _, if_pos h, execCall_full nnn h⟩
    · exact .inr ⟨_, if_neg h, execCall_room nnn h, rfl⟩
  case ldB x =>
    by_cases h : s.i.toNat + 3 > 4096
    · exact .inl ⟨_, _, if_pos h, execLdB_out x h⟩
    · exact .inr ⟨_, if_neg h, execLdB_in x (by omega), rfl⟩
  case stRegs x =>
    by_cases h : s.i.toNat + x.val + 1 > 4096
    · exact .inl ⟨_, _, if_pos h, execStRegs_out x h⟩
    · exact .inr ⟨_, if_neg h, execStRegs_in x (by omega), rfl⟩
  case ldRegs x =>
    by_cases h : s.i.toNat + x.val + 1 > 4096
    · exact .inl ⟨_, _, if_pos h, execLdRegs_out x h⟩
    · exact .inr ⟨_, if_neg h, execLdRegs_in x (by omega), by rw [loadRegs_eq]⟩
  case drw x y n =>
    by_cases h : s.i.toNat + n > 4096
    · exact .inl ⟨_, _, if_pos h, execDrw_out x y n h⟩
    · exact .inr ⟨_, if_neg h, execDrw_in x y n (by omega), rfl⟩
  case ldVxK x =>
    cases h : firstKeyPressed s.k with
    | none => exact .inr ⟨_, rfl, execLdVxK_none x h, rfl⟩
    | some n => exact .inr ⟨_, rfl, execLdVxK_some x h, rfl⟩
  case addI x => exact .inr ⟨_, rfl, rfl, by split <;> rfl⟩
  all_goals exact .inr ⟨_, rfl, rfl, by simp⟩

/-! The cycle, one equation for each way it can go (40_cycle_and_control_flow.md R100). -/

theorem cycle_of_faulted (rnd : Byte) {s : State} {e : ErrRecord} (h : s.err = some e) : cycle rnd s = .next s := by
  simp [cycle, State.faulted, h]

theorem cycle_of_no_fetch (rnd : Byte) {s : State} (h : s.err = none) (hf : fetchWord s = none) :
    cycle rnd s = failsWith ⟨.outOfBounds, s.pc, none, some (s.pc.toNat, 2)⟩ s := by
  simp [cycle, State.faulted, h, hf, raiseError, failsWith]

theorem cycle_of_illegal (rnd : Byte) {s : State} {w : Word} {d : DecodeError} (h : s.err = none)
    (hf : fetchWord s = some w) (hd : decodeWord w = .error d) :
    cycle rnd s = failsWith ⟨.illegalInstruction, s.pc, some w, none⟩ s.advance := by
  simp [cycle, State.faulted, h, hf, runWord, hd, raiseError, failsWith]

theorem cycle_of_decode (rnd : Byte) {s : State} {w : Word} {i : Instr} (h : s.err = none)
    (hf : fetchWord s = some w) (hd : decodeWord w = .ok i) : cycle rnd s = exec i (s.advance.withRandom rnd) := by
  simp [cycle, State.faulted, h, hf, runWord, hd]

/-- A cycle always answers a next state. -/
theorem cycle_answers (rnd : Byte) (s : State) : ∃ t, cycle rnd s = .next t := by
  cases h : s.err with
  | some e => exact ⟨s, cycle_of_faulted rnd h⟩
  | none =>
    cases hf : fetchWord s with
    | none => exact ⟨_, cycle_of_no_fetch rnd h hf⟩
    | some w =>
      cases hd : decodeWord w with
      | error d => exact ⟨_, cycle_of_illegal rnd h hf hd⟩
      | ok i =>
        rw [cycle_of_decode rnd h hf hd]
        rcases exec_cases i (s.advance.withRandom rnd) with ⟨_, _, _, he⟩ | ⟨t, _, he, _⟩
        · exact ⟨_, he⟩
        · exact ⟨t, he⟩

end Sys2Proof.Machine
end

