-- ==== Sys2Proof/Laws/PerInstr.lean ====
section
/-! SUPPORT. One lemma per constructor: the word of a well-formed instruction selects the row of table T-R84 the instruction
belongs to (30_encoding.md R84). -/

namespace Sys2Proof.Laws.RowMatch

/-- The instruction's word, masked as its row of table T-R84 says, is the row's match value. -/
def Statement (i : Instr) : Prop := i.WellFormed → encode i &&& i.row.mask = i.row.value

/-- Format NNN: the row matches the family alone. -/
theorem nnn {f : BitVec 4} {v : Word} (h : packXYN f 0 0 0 = v) (a : BitVec 12) : packNNN f a &&& 0xF000 = v := by
  rw [and_F000, famOf_packNNN, h]

/-- Format XNN: the row matches the family alone. -/
theorem xnn {f : BitVec 4} {v : Word} (h : packXYN f 0 0 0 = v) (x : Reg) (nn : Byte) : packXNN f x nn &&& 0xF000 = v := by
  rw [and_F000, famOf_packXNN, h]

/-- Format XYN: the row matches the family alone. -/
theorem xyn {f : BitVec 4} {v : Word} (h : packXYN f 0 0 0 = v) (x y : Reg) (n : BitVec 4) :
    packXYN f x y n &&& 0xF000 = v := by
  rw [and_F000, famOf_packXYN, h]

/-- Format XYS: the row matches the family and N. -/
theorem xys {f n : BitVec 4} {v : Word} (h : packXYN f 0 0 n = v) (x y : Reg) : packXYN f x y n &&& 0xF00F = v := by
  rw [and_F00F, famOf_packXYN, nOf_packXYN, h]

/-- Format XSS: the row matches the family and NN. -/
theorem xss {f : BitVec 4} {nn : Byte} {v : Word} (h : packXNN f 0 nn = v) (x : Reg) : packXNN f x nn &&& 0xF0FF = v := by
  rw [and_F0FF, famOf_packXNN, nnOf_packXNN, h]

theorem cls : Statement .cls :=
  fun _ => rfl
theorem ret : Statement .ret :=
  fun _ => rfl
theorem jp (nnn : BitVec 12) : Statement (.jp nnn) :=
  fun _ => RowMatch.nnn rfl nnn
theorem call (nnn : BitVec 12) : Statement (.call nnn) :=
  fun _ => RowMatch.nnn rfl nnn
theorem seImm (x : Reg) (nn : Byte) : Statement (.seImm x nn) :=
  fun _ => xnn rfl x nn
theorem sneImm (x : Reg) (nn : Byte) : Statement (.sneImm x nn) :=
  fun _ => xnn rfl x nn
theorem seReg (x y : Reg) : Statement (.seReg x y) :=
  fun _ => xys rfl x y
theorem ldImm (x : Reg) (nn : Byte) : Statement (.ldImm x nn) :=
  fun _ => xnn rfl x nn
theorem addImm (x : Reg) (nn : Byte) : Statement (.addImm x nn) :=
  fun _ => xnn rfl x nn
theorem ldReg (x y : Reg) : Statement (.ldReg x y) :=
  fun _ => xys rfl x y
theorem orReg (x y : Reg) : Statement (.orReg x y) :=
  fun _ => xys rfl x y
theorem andReg (x y : Reg) : Statement (.andReg x y) :=
  fun _ => xys rfl x y
theorem xorReg (x y : Reg) : Statement (.xorReg x y) :=
  fun _ => xys rfl x y
theorem addReg (x y : Reg) : Statement (.addReg x y) :=
  fun _ => xys rfl x y
theorem sub (x y : Reg) : Statement (.sub x y) :=
  fun _ => xys rfl x y
theorem shr (x y : Reg) : Statement (.shr x y) :=
  fun _ => xys rfl x y
theorem subn (x y : Reg) : Statement (.subn x y) :=
  fun _ => xys rfl x y
theorem shl (x y : Reg) : Statement (.shl x y) :=
  fun _ => xys rfl x y
theorem sneReg (x y : Reg) : Statement (.sneReg x y) :=
  fun _ => xys rfl x y
theorem ldI (nnn : BitVec 12) : Statement (.ldI nnn) :=
  fun _ => RowMatch.nnn rfl nnn
theorem jpOff (nnn : BitVec 12) : Statement (.jpOff nnn) :=
  fun _ => RowMatch.nnn rfl nnn
theorem rnd (x : Reg) (nn : Byte) : Statement (.rnd x nn) :=
  fun _ => xnn rfl x nn
theorem drw (x y : Reg) (n : Nat) : Statement (.drw x y n) :=
  fun _ => xyn rfl x y (BitVec.ofNat 4 n)
theorem skp (x : Reg) : Statement (.skp x) :=
  fun _ => xss rfl x
theorem sknp (x : Reg) : Statement (.sknp x) :=
  fun _ => xss rfl x
theorem ldVxDt (x : Reg) : Statement (.ldVxDt x) :=
  fun _ => xss rfl x
theorem ldVxK (x : Reg) : Statement (.ldVxK x) :=
  fun _ => xss rfl x
theorem ldDtVx (x : Reg) : Statement (.ldDtVx x) :=
  fun _ => xss rfl x
theorem ldStVx (x : Reg) : Statement (.ldStVx x) :=
  fun _ => xss rfl x
theorem addI (x : Reg) : Statement (.addI x) :=
  fun _ => xss rfl x
theorem ldF (x : Reg) : Statement (.ldF x) :=
  fun _ => xss rfl x
theorem ldB (x : Reg) : Statement (.ldB x) :=
  fun _ => xss rfl x
theorem stRegs (x : Reg) : Statement (.stRegs x) :=
  fun _ => xss rfl x
theorem ldRegs (x : Reg) : Statement (.ldRegs x) :=
  fun _ => xss rfl x

end Sys2Proof.Laws.RowMatch
end

