-- ==== Sys2Proof/Tests/Slice0.lean ====
section
/-! SUPPORT. The model's own tests. Expected values are the spec's: the vectors named V<n>-<m> and E<n> are those of
95_test_vectors.md, the words are written out from table T-R84. Then, for every obligation with hypotheses, a witness that
meets them. -/

namespace Sys2Proof.Tests

open Sys2Proof.Machine

/-! ## Well-formedness -/

/-- R83: N of DXYN is at most 15; a sixteenth row is refused. -/
theorem test_wf_refuses_sixteen_rows : ¬ (Instr.drw 0 0 16).WellFormed := by decide

theorem test_wf_accepts_fifteen_rows : (Instr.drw 0 0 15).WellFormed := by decide

/-! ## Decoding: each row's word bit by bit (table T-R84), decoded and encoded -/

/-- `w` is the word of `i`, both ways. -/
def IsWordOf (w : Word) (i : Instr) : Prop := decodeWord w = .ok i ∧ encode i = w

theorem test_words_control :
    IsWordOf 0b0000000011100000 .cls ∧ IsWordOf 0b0000000011101110 .ret ∧
    IsWordOf 0b0001001000110100 (.jp 0x234) ∧ IsWordOf 0b0010001100000001 (.call 0x301) ∧
    IsWordOf 0b1011001011111111 (.jpOff 0x2FF) := by unfold IsWordOf; decide

theorem test_words_skips :
    IsWordOf 0b0011000100101010 (.seImm 1 0x2A) ∧ IsWordOf 0b0100000011111111 (.sneImm 0 0xFF) ∧
    IsWordOf 0b0101101010110000 (.seReg 10 11) ∧ IsWordOf 0b1001000100100000 (.sneReg 1 2) ∧
    IsWordOf 0b1110010110011110 (.skp 5) ∧ IsWordOf 0b1110010110100001 (.sknp 5) := by unfold IsWordOf; decide

theorem test_words_immediates :
    IsWordOf 0b0110111110101011 (.ldImm 15 0xAB) ∧ IsWordOf 0b0111001000000101 (.addImm 2 0x05) ∧
    IsWordOf 0b1010000001010000 (.ldI 0x050) ∧ IsWordOf 0b1100000000111100 (.rnd 0 0x3C) := by unfold IsWordOf; decide

theorem test_words_alu :
    IsWordOf 0b1000000100100000 (.ldReg 1 2) ∧ IsWordOf 0b1000000100100001 (.orReg 1 2) ∧
    IsWordOf 0b1000000100100010 (.andReg 1 2) ∧ IsWordOf 0b1000000100100011 (.xorReg 1 2) ∧
    IsWordOf 0b1000000100100100 (.addReg 1 2) ∧ IsWordOf 0b1000000100100101 (.sub 1 2) ∧
    IsWordOf 0b1000000100100110 (.shr 1 2) ∧ IsWordOf 0b1000000100100111 (.subn 1 2) ∧
    IsWordOf 0b1000000100101110 (.shl 1 2) := by unfold IsWordOf; decide

theorem test_words_misc :
    IsWordOf 0b1101000000010101 (.drw 0 1 5) ∧ IsWordOf 0b1111001100000111 (.ldVxDt 3) ∧
    IsWordOf 0b1111001100001010 (.ldVxK 3) ∧ IsWordOf 0b1111001100010101 (.ldDtVx 3) ∧
    IsWordOf 0b1111001100011000 (.ldStVx 3) ∧ IsWordOf 0b1111001100011110 (.addI 3) ∧
    IsWordOf 0b1111001100101001 (.ldF 3) ∧ IsWordOf 0b1111001100110011 (.ldB 3) ∧
    IsWordOf 0b1111001101010101 (.stRegs 3) ∧ IsWordOf 0b1111001101100101 (.ldRegs 3) := by unfold IsWordOf; decide

/-- V40-6 to V40-12: one word of each of R86's illegal families. -/
theorem test_illegal_words :
    decodeWord 0x00E1 = .error .family0 ∧ decodeWord 0x5AB1 = .error .family5 ∧ decodeWord 0x800D = .error .family8 ∧
    decodeWord 0x9AB1 = .error .family9 ∧ decodeWord 0xE0A0 = .error .familyE ∧ decodeWord 0xF01F = .error .familyF := by
  decide

/-- The host's numbering: the table's words, and fewer than two bytes refused. -/
theorem test_table_word : decodeTableWord 16 0x812E = some (.shl 1 2) ∧ decodeTableWord 16 0x800F = none := by decide

theorem test_truncated : decodeBytes [0x60] = .error .truncated := by decide

/-! ## One cycle -/

/-- What one cycle makes of a state whose next word is `w`, seen through `f`. -/
def seen {α : Type} (f : State → α) (w : Word) (s : State) (rnd : Byte := 0) : Option α :=
  match cycle rnd (s.placeNext w) with
  | .next t => some (f t)
  | .fault _ | .refused _ => none

/-- The state after reset with V0 and V1. -/
def pair (a b : Byte) : State := (State.reset.setReg 0 a).setReg 1 b

/-- The state after reset with VF and V1. -/
def flagPair (f b : Byte) : State := (State.reset.setReg VF f).setReg 1 b

/-- The state after reset with I and V0. -/
def indexed (i : Word) (a : Byte) : State := { State.reset.setReg 0 a with i := i }

/-- The configuration with the other setting of each quirk. -/
def quirks : Config := { shiftSrc := .vy, jumpReg := .vx, iOvfFlag := true, stackCapacity := .unbounded }

/-- A Faulted core, as program F of 95_test_vectors.md leaves it. -/
def faulted : State := { State.reset with pc := 0x202, err := some ⟨.stackUnderflow, 0x200, some 0x00EE, none⟩ }

theorem test_fetch_last_address_V40_1 : seen State.pc 0x1234 { State.reset with pc := 0xFFE } = some 0x234 := by decide

theorem test_fetch_fails_V40_2 : cycle 0 { State.reset with pc := 0xFFF } =
    .next { State.reset with pc := 0xFFF, err := some ⟨.outOfBounds, 0xFFF, none, some (0xFFF, 2)⟩ } := by rfl

theorem test_empty_memory_V40_5 : cycle 0 State.reset =
    .next { State.reset with pc := 0x202, err := some ⟨.illegalInstruction, 0x200, some 0x0000, none⟩ } := by rfl

theorem test_faulted_refuses_V40_13 : cycle 0 (faulted.setReg 1 7) = .next (faulted.setReg 1 7) := by rfl

theorem test_ret_V40_20 : seen (fun t => (t.pc, t.stack)) 0x00EE
    { State.reset with pc := 0x400, stack := [0x302, 0x202] } = some (0x302, [0x202]) := by decide

theorem test_ret_empty_V40_21 : seen (fun t => (t.pc, t.err)) 0x00EE { State.reset with pc := 0x400 } =
    some (0x402, some ⟨.stackUnderflow, 0x400, some 0x00EE, none⟩) := by decide

theorem test_jp_V40_22 : seen State.pc 0x1FFF State.reset = some 0xFFF := by decide

theorem test_call_sixteenth_V40_25 : seen (fun t => (t.pc, t.stack)) 0x2300
    { State.reset with stack := List.replicate 15 0x111 } = some (0x300, 0x202 :: List.replicate 15 0x111) := by decide

theorem test_call_full_V40_26 : seen (fun t => (t.pc, t.stack.length, t.cycleStatus)) 0x2300
    { State.reset with stack := List.replicate 16 0x111 } = some (0x202, 16, .error .stackOverflow) := by decide

theorem test_jpOff_largest_V40_29 : seen State.pc 0xBFFF (pair 0xFF 0) = some 0x10FE := by decide

theorem test_jpOff_vx_V40_31 : seen State.pc 0xB2FF { (pair 1 0).setReg 2 0x10 with cfg := quirks } = some 0x30F := by
  decide

theorem test_seImm_V40_32 : seen State.pc 0x3F01 (flagPair 1 0) = some 0x204 := by decide

theorem test_seImm_V40_33 : seen State.pc 0x3F01 (flagPair 0 0) = some 0x202 := by decide

theorem test_sneImm_V40_34 : seen State.pc 0x4000 State.reset = some 0x202 := by decide

theorem test_sneImm_V40_35 : seen State.pc 0x40FF State.reset = some 0x204 := by decide

theorem test_seReg_V40_36 : seen State.pc 0x5AB0 ((State.reset.setReg 10 3).setReg 11 3) = some 0x204 := by decide

theorem test_sneReg_V40_38 : seen State.pc 0x9AB0 ((State.reset.setReg 10 3).setReg 11 3) = some 0x202 := by decide

theorem test_sneReg_V40_39 : seen State.pc 0x9AB0 ((State.reset.setReg 10 3).setReg 11 4) = some 0x204 := by decide

theorem test_ldImm_V41_1 : seen (State.reg · VF) 0x6FAB State.reset = some 0xAB := by decide

theorem test_addImm_E2 : seen (fun t => (t.reg 2, t.reg VF)) 0x7205 ((flagPair 0x5A 0).setReg 2 0xFE) =
    some (0x03, 0x5A) := by decide

theorem test_ldReg_V41_4 : seen (State.reg · VF) 0x8F10 (pair 0 0x77) = some 0x77 := by decide

theorem test_orReg_V41_5 : seen (State.reg · 0) 0x8011 (pair 0x0A 0x05) = some 0x0F := by decide

theorem test_andReg_V41_6 : seen (State.reg · 0) 0x8012 (pair 0x0A 0x06) = some 0x02 := by decide

theorem test_xorReg_V41_7 : seen (State.reg · 0) 0x8003 (pair 0xAA 0) = some 0x00 := by decide

theorem test_addReg_V41_10 : seen (fun t => (t.reg 0, t.reg VF)) 0x8014 (pair 0x80 0x80) = some (0x00, 1) := by decide

theorem test_addReg_vf_V41_12 : seen (State.reg · VF) 0x8F14 (flagPair 0xC8 0x64) = some 0x01 := by decide

theorem test_sub_V41_15 : seen (fun t => (t.reg 0, t.reg VF)) 0x8015 (pair 0x00 0x01) = some (0xFF, 0) := by decide

theorem test_sub_vf_V41_18 : seen (fun t => (t.reg 1, t.reg VF)) 0x81F5 (flagPair 0x09 0x03) = some (0xFA, 0) := by decide

theorem test_shr_vy_V41_24 : seen (fun t => (t.reg 0, t.reg 1, t.reg VF)) 0x8016 { pair 0x01 0xFE with cfg := quirks } =
    some (0x7F, 0xFE, 0) := by decide

theorem test_shr_vf_V41_26 : seen (State.reg · VF) 0x8F16 (flagPair 0x02 0) = some 0x00 := by decide

theorem test_subn_V41_19 : seen (fun t => (t.reg 0, t.reg VF)) 0x8017 (pair 0x01 0x00) = some (0xFF, 0) := by decide

theorem test_subn_V41_21 : seen (fun t => (t.reg 0, t.reg 1, t.reg VF)) 0x8017 (pair 0x05 0x07) =
    some (0x02, 0x07, 1) := by decide

theorem test_shl_V41_27 : seen (fun t => (t.reg 0, t.reg VF)) 0x801E (pair 0x80 0x01) = some (0x00, 1) := by decide

theorem test_shl_vf_V41_31 : seen (State.reg · VF) 0x8F1E { flagPair 0xC0 0x01 with cfg := quirks } = some 0x00 := by
  decide

theorem test_rnd_V41_34 : seen (State.reg · 0) 0xC03C State.reset 0xA5 = some 0x24 := by decide

theorem test_ldI_V42_1 : seen State.i 0xAFFF State.reset = some 0xFFF := by decide

theorem test_ldF_V42_12 : seen State.i 0xF029 (pair 0x10 0) = some 0x0A0 := by decide

theorem test_ldB_V42_4 : seen (fun t => t.mem.readList 0xFFC 4) 0xF033
    { indexed 0xFFD 0x07 with mem := [(0xFFC, 9), (0xFFD, 9), (0xFFE, 9), (0xFFF, 9)] } = some [9, 0, 0, 7] := by decide

theorem test_ldB_out_V42_5 : seen (fun t => (t.pc, t.err, t.mem.readList 0xFFE 2)) 0xF033 (indexed 0xFFE 0x07) =
    some (0x202, some ⟨.outOfBounds, 0x200, some 0xF033, some (0xFFE, 3)⟩, [0, 0]) := by decide

theorem test_addI_V42_6 : seen (fun t => (t.i, t.reg VF)) 0xF01E (indexed 0xFFFF 0x02) = some (0x0001, 0) := by decide

theorem test_addI_flag_V42_10 : seen (fun t => (t.i, t.reg VF)) 0xFF1E
    { flagPair 1 0 with i := 0xFFE, cfg := quirks } = some (0xFFF, 0) := by decide

theorem test_stRegs_V42_15 : seen (fun t => (t.cycleStatus, t.mem.read 0xFFF)) 0xF155 { pair 0xAB 0xCD with i := 0xFFF } =
    some (.error .outOfBounds, 0) := by decide

theorem test_stRegs_two : seen (fun t => (t.i, t.mem.readList 0x300 3)) 0xF155
    { (pair 0x10 0x11).setReg 2 0x12 with i := 0x300 } = some (0x300, [0x10, 0x11, 0]) := by decide

theorem test_ldRegs_V42_17 : seen (fun t => (t.reg 0, t.reg 1, t.reg 2, t.reg 3, t.i)) 0xF265
    { State.reset.setReg 3 0x99 with i := 0x300, mem := [(0x300, 1), (0x301, 2), (0x302, 3), (0x303, 4)] } =
    some (1, 2, 3, 0x99, 0x300) := by decide

theorem test_ldRegs_no_wrap_V42_21 : seen State.cycleStatus 0xF065 (indexed 0xFFFF 0) = some (.error .outOfBounds) := by
  decide

theorem test_cls_V43_1 : seen (fun t => (t.fb.get 31 63, t.redraw)) 0x00E0
    { State.reset with fb := Frame.blank.put 31 63 true } = some (false, true) := by decide

theorem test_drw_wraps_V43_5 : seen (fun t => (t.fb.get 31 63, t.fb.get 0 63, t.fb.get 0 0)) 0xD012
    { pair 0x3F 0x1F with i := 0x300, mem := [(0x300, 0x80), (0x301, 0x80)] } = some (true, true, false) := by decide

theorem test_drw_collision_V43_6 : seen (fun t => (t.fb.get 0 0, t.fb.get 0 1, t.reg VF)) 0xD011
    { State.reset with i := 0x300, mem := [(0x300, 0xC0)], fb := Frame.blank.put 0 1 true } = some (true, false, 1) := by
  decide

theorem test_skp_V44_1 : seen State.pc 0xE09E { pair 0x0F 0 with k := 0x8000 } = some 0x204 := by decide

theorem test_skp_V44_3 : seen State.pc 0xE09E { pair 0x10 0 with k := 0xFFFF } = some 0x202 := by decide

theorem test_sknp_V44_4 : seen State.pc 0xE0A1 { pair 0x10 0 with k := 0xFFFF } = some 0x204 := by decide

theorem test_sknp_V44_6 : seen State.pc 0xE1A1 { pair 0x05 0x00 with k := 0x0020 } = some 0x204 := by decide

theorem test_ldVxK_V44_8 : seen (fun t => (t.reg 0, t.pc)) 0xF00A { pair 9 0 with k := 0xFFFF } = some (0, 0x202) := by
  decide

theorem test_ldVxK_V44_9 : seen (fun t => (t.reg 0, t.pc)) 0xF00A (pair 9 0) = some (9, 0x200) := by decide

theorem test_ldVxDt_V44_10 : seen (fun t => (t.reg 0, t.dt)) 0xF007 { State.reset with dt := 0xFF } = some (0xFF, 0xFF) := by
  decide

theorem test_ldDtVx_V44_11 : seen State.dt 0xF015 { State.reset with dt := 0x20 } = some 0 := by decide

theorem test_ldStVx_V44_12 : seen State.st 0xF018 (pair 0xFF 0) = some 0xFF := by decide

/-! ## The host's transactions -/

theorem test_tick_V60_1 : tick { State.reset with dt := 2, st := 1 } = ({ State.reset with dt := 1 }, true) := by rfl

theorem test_setKey_V44_13 :
    setKeyBit 0 3 true = 0x0008 ∧ setKeyBit 0x0008 5 true = 0x0028 ∧ setKeyBit 0x0028 3 false = 0x0020 := by decide

/-- V60-8: the tail of a longer program stays. -/
theorem test_loadProgram_tail_V60_8 :
    (loadProgram [0x11] (loadProgram [0xAA, 0xBB] State.reset).1).1.mem.readList 0x200 3 = [0x11, 0xBB, 0] := by decide

theorem test_reset_font_V60_12 : (resetWith quirks defaultFont).mem.readList 0x050 5 = [0xF0, 0x90, 0x90, 0x90, 0xF0] := by
  decide

/-- The placed word is the one the next step runs, from reset and from a core that has failed. -/
theorem test_withFetchWord :
    fetchWord (State.reset.withFetchWord 16 0x60AB) = some 0x60AB ∧
    fetchWord ({ faulted with pc := 0xFFF }.withFetchWord 16 0x60AB) = some 0x60AB ∧
    ({ faulted with pc := 0xFFF }.withFetchWord 16 0x60AB).err = none := by decide

/-! ## Witnesses: concrete states and operands that meet the hypotheses of each obligation, one for each clause -/

/-- The state after reset with a word at 0x200. -/
def ready (w : Word) : State := State.reset.placeNext w

/-- The state after reset with a stack of n entries. -/
def deep (n : Nat) : State := { State.reset with stack := List.replicate n 0x202 }

theorem witness_DecodeOfEncode : (Instr.drw 15 15 15).WellFormed ∧ Instr.cls.WellFormed := by decide

theorem witness_EncodeOfDecode : decodeWord 0xDFFF = .ok (.drw 15 15 15) := by decide

theorem witness_DecoderFollowsOpcodeTable :
    decodeWord 0x8126 = .ok (.shr 1 2) ∧ OpcodeRow.mk 0xF00F 0x8006 ∈ opcodeTable ∧ (0x8126 : Word) &&& 0xF00F = 0x8006 := by
  decide

theorem witness_MemReadReturnsTheRange : 4096 < 4095 + 2 ∧ 4094 + 2 ≤ 4096 ∧ 4096 + 0 ≤ 4096 ∧ 1 < 2 := by decide

theorem witness_MemWriteStoresTheRange : Memory.wf [] = true ∧ Memory.wf [(0x300, 7)] = true ∧
    4096 < 4094 + [1, 2, (3 : Byte)].length ∧ 4093 + [1, 2, (3 : Byte)].length ≤ 4096 := by decide

theorem witness_StepRunsTheDecodedInstruction :
    (State.placeNext { State.reset with pc := 4094 } 0x1234).Healthy ∧
    (State.placeNext { State.reset with pc := 4094 } 0x1234).pc.toNat ≤ 4094 ∧
    fetchWord (State.placeNext { State.reset with pc := 4094 } 0x1234) = some 0x1234 ∧
    decodeWord (wordOf ((State.placeNext { State.reset with pc := 4094 } 0x1234).mem.read 4094)
      ((State.placeNext { State.reset with pc := 4094 } 0x1234).mem.read 4095)) = .ok (.jp 0x234) := by decide

theorem witness_FetchPastTheEndFails :
    State.Healthy { State.reset with pc := 4095 } ∧ 4095 ≤ ({ State.reset with pc := 4095 } : State).pc.toNat := by decide

theorem witness_IllegalWordAdvancesAndLatches :
    (ready 0x5AB1).Healthy ∧ fetchWord (ready 0x5AB1) = some 0x5AB1 ∧ decodeWord 0x5AB1 = .error .family5 := by decide

theorem witness_EveryFetchedWordAdvances :
    (ready 0xF055).Healthy ∧ fetchWord (ready 0xF055) = some 0xF055 ∧ decodeWord 0xF055 = .ok (.stRegs 0) ∧
    movesPc (.stRegs 0) = false := by decide

/-- The other clause: a cycle whose result is not Ok. -/
theorem witness_EveryFetchedWordAdvances_failing :
    (ready 0x00EE).Healthy ∧ fetchWord (ready 0x00EE) = some 0x00EE ∧
    ∃ t, cycle 0 (ready 0x00EE) = .next t ∧ t.cycleStatus ≠ .ok := ⟨by decide, by decide, _, rfl, by decide⟩

theorem witness_FaultedCoreRefusesCycles : faulted.err = some ⟨.stackUnderflow, 0x200, some 0x00EE, none⟩ := by decide

theorem witness_JumpWithOffsetAddsRegister :
    State.reset.cfg.jumpReg = .v0 ∧ ({ State.reset with cfg := quirks } : State).cfg.jumpReg = .vx ∧
    (15 : Reg).val = (0xFFF : BitVec 12).toNat / 256 := by decide

theorem witness_CallPushesAdvancedPc :
    (deep 15).cfg.stackCapacity ≠ .bounded (deep 15).stack.length ∧
    (deep 16).cfg.stackCapacity = .bounded (deep 16).stack.length ∧
    ({ deep 16 with cfg := quirks } : State).cfg.stackCapacity ≠ .bounded ({ deep 16 with cfg := quirks } : State).stack.length := by
  decide

theorem witness_ReturnPopsNewest : (deep 1).stack = 0x202 :: [] ∧ State.reset.stack = [] := by decide

theorem witness_ReturnUndoesCall :
    (deep 15).cfg.stackCapacity ≠ .bounded (deep 15).stack.length ∧ ∃ t, exec (.call 0x300) (deep 15) = .next t :=
  ⟨by decide, _, rfl⟩

theorem witness_Skips : (pair 3 4).reg 0 = 3 ∧ (pair 3 4).reg 0 ≠ 4 ∧ (pair 3 3).reg 0 = (pair 3 3).reg 1 ∧
    (pair 3 4).reg 0 ≠ (pair 3 4).reg 1 := by decide

theorem witness_AddRegistersSetsCarry : (0 : Reg) ≠ VF ∧
    ((pair 0x80 0x80).reg 0).toNat + ((pair 0x80 0x80).reg 1).toNat > 255 ∧
    ((pair 0x80 0x7F).reg 0).toNat + ((pair 0x80 0x7F).reg 1).toNat ≤ 255 := by decide

theorem witness_SubtractionsSetNoBorrow : (0 : Reg) ≠ VF ∧
    ((pair 0x33 0x33).reg 0).toNat ≥ ((pair 0x33 0x33).reg 1).toNat ∧
    ((pair 0x32 0x33).reg 0).toNat < ((pair 0x32 0x33).reg 1).toNat ∧
    ((pair 0x33 0x32).reg 1).toNat < ((pair 0x33 0x32).reg 0).toNat := by decide

theorem witness_ShiftsMoveOneBit : (0 : Reg) ≠ VF ∧ (State.reset.cfg.shiftSrc = .vx ∧ (0 : Reg) = 0) ∧
    (({ State.reset with cfg := quirks } : State).cfg.shiftSrc = .vy ∧ (1 : Reg) = 1) := by decide

theorem witness_FlagIsZeroOrOne : State.reset.Healthy ∧
    (∃ t, exec (.addReg 0 1) State.reset = .next t ∧ t.Healthy) ∧ flagWriter State.reset.cfg (.addReg 0 1) = true ∧
    flagWriter quirks (.addI 0) = true ∧ VF ∉ (mayWrite (.ldImm 0 1) State.reset).regs ∧
    VF ∉ (mayWrite (.addI 0) State.reset).regs :=
  ⟨rfl, ⟨_, rfl, rfl⟩, by decide, by decide, by decide, by decide⟩

theorem witness_AddIndexWraps : State.reset.cfg.iOvfFlag = false ∧
    ({ indexed 0xFFF 1 with cfg := quirks } : State).cfg.iOvfFlag = true ∧
    (indexed 0xFFF 1).i.toNat + ((indexed 0xFFF 1).reg 0).toNat > 0x0FFF ∧
    (indexed 0xFFF 0).i.toNat + ((indexed 0xFFF 0).reg 0).toNat ≤ 0x0FFF := by decide

theorem witness_DecimalDigitsAreStored : (indexed 4093 7).mem.wf = true ∧ (indexed 4093 7).i.toNat + 3 ≤ 4096 ∧
    4096 < (indexed 4094 7).i.toNat + 3 := by decide

theorem witness_RegisterBlocks : State.reset.mem.wf = true ∧ (indexed 0xFF0 7).i.toNat + (15 : Reg).val + 1 ≤ 4096 ∧
    4096 < (indexed 0xFF1 7).i.toNat + (15 : Reg).val + 1 ∧ (indexed 0xFFF 7).i.toNat + (0 : Reg).val + 1 ≤ 4096 ∧
    4096 < (indexed 0x1000 7).i.toNat + (0 : Reg).val + 1 ∧ (3 : Reg) ≤ 3 ∧ (3 : Reg) < 4 := by decide

theorem witness_StoreThenLoadRoundTrips : (indexed 0x300 7).mem.wf = true ∧
    (indexed 0x300 7).i.toNat + (1 : Reg).val + 1 ≤ 4096 ∧
    ∃ t, exec (.stRegs 1) (indexed 0x300 7) = .next t ∧ t.mem = t.mem ∧ t.i = (indexed 0x300 7).i ∧
      ∃ w, exec (.ldRegs 1) (t.setReg 0 0) = .next w :=
  ⟨by decide, by decide, _, rfl, rfl, rfl, _, rfl⟩

theorem witness_StoreIsSeenByNextFetch : (indexed 0x200 0x12).mem.wf = true ∧
    (indexed 0x200 0x12).i.toNat + (1 : Reg).val + 1 ≤ 4096 ∧ (∃ t, exec (.stRegs 1) (indexed 0x200 0x12) = .next t) ∧
    (indexed 0x200 0x12).pc.toNat = (indexed 0x200 0x12).i.toNat + (0 : Reg).val ∧ (1 : Reg).val = (0 : Reg).val + 1 ∧
    (1 : Reg) ≤ 1 := ⟨by decide, by decide, ⟨_, rfl⟩, by decide, by decide, by decide⟩

theorem witness_Draws : (List.replicate 15 (0xFF : Byte)).length ≤ 15 ∧ 14 < (List.replicate 15 (0xFF : Byte)).length ∧
    ¬ ((5 : Fin 32) = targetRow 0 0 ∧ (5 : Fin 64) = targetCol 0 0) := by decide

theorem witness_DrawInstructionDrawsSprite : 15 < 16 ∧ (indexed 0xFF1 0).i.toNat + 15 ≤ 4096 ∧
    4096 < (indexed 0xFF2 0).i.toNat + 15 ∧ (indexed 0x1000 0).i.toNat + 0 ≤ 4096 ∧
    4096 < (indexed 0x1001 0).i.toNat + 0 := by decide

theorem witness_SkipsTestTheKeyOfVx :
    ((pair 15 16).reg 0).toNat ≤ 15 ∧ (0x8000 : Word).getLsbD ((pair 15 16).reg 0).toNat = true ∧
    (0x7FFF : Word).getLsbD ((pair 15 16).reg 0).toNat = false ∧ 16 ≤ ((pair 15 16).reg 1).toNat := by decide

theorem witness_WaitForKeyTakesLowest : State.reset.k = 0 ∧ ({ State.reset with k := 0x8000 } : State).k ≠ 0 := by decide

theorem witness_AwaitingKeyRepeats : (ready 0xF30A).Healthy ∧ (ready 0xF30A).AwaitingKey :=
  ⟨rfl, 3, by decide, rfl⟩

theorem witness_EndedProgramChangesNothing : (ready 0x1200).Ended := ⟨rfl, 0x200, by decide, by decide⟩

theorem witness_LoadProgramWritesFromProgBase : State.reset.mem.wf = true ∧
    (List.replicate 3584 (1 : Byte)).length ≤ 3584 ∧ 3584 < (List.replicate 3585 (1 : Byte)).length :=
  ⟨by decide, by rw [List.length_replicate], by rw [List.length_replicate]; decide⟩

theorem witness_InstructionsWriteOnlyTheirColumn :
    (indexed 0x300 7).mem.wf = true ∧ ∃ t, exec (.stRegs 1) (indexed 0x300 7) = .next t := ⟨by decide, _, rfl⟩

theorem witness_ErrorsAreExactlyThoseListed : State.reset.Healthy := by decide

theorem witness_ErrorsArePrecise : (ready 0x00EE).Healthy ∧ fetchWord (ready 0x00EE) ≠ none ∧
    ∃ t e, cycle 0 (ready 0x00EE) = .next t ∧ t.err = some e := ⟨rfl, by decide, _, _, rfl, rfl⟩

/-- The other clause: the fetch itself fails. -/
theorem witness_ErrorsArePrecise_fetch : fetchWord { State.reset with pc := 0xFFF } = none ∧
    ∃ t e, cycle 0 { State.reset with pc := 0xFFF } = .next t ∧ t.err = some e := ⟨by decide, _, _, rfl, rfl⟩

theorem witness_ErrorsDependOnFewInputs : SameErrorInputs State.reset { pair 1 2 with k := 7, dt := 3 } ∧
    (∃ t, cycle 0 State.reset = .next t) ∧ ∃ t, cycle 9 { pair 1 2 with k := 7, dt := 3 } = .next t :=
  ⟨⟨rfl, rfl, by decide, rfl, rfl, rfl⟩, ⟨_, rfl⟩, _, rfl⟩

theorem witness_RandomByteReachesOnlyRnd : (∀ x nn, fetchWord (ready 0x6012) ≠ some (encode (.rnd x nn))) ∧
    (∃ t, cycle 1 (ready 0x6012) = .next t) ∧ ∃ t, cycle 2 (ready 0x6012) = .next t := by
  refine ⟨fun x nn h => ?_, cycle_answers _ _, cycle_answers _ _⟩
  rw [show fetchWord (ready 0x6012) = some 0x6012 by decide] at h
  have := congrArg famOf (Option.some.inj h)
  rw [encode, famOf_packXNN] at this
  exact absurd this (by decide)

/-- A state at every bound of the invariant: a full stack of the highest return address, and the highest `pc`. -/
def atTheBounds : State := { State.reset with stack := List.replicate 16 4096, pc := 0x10FE }

theorem witness_inv : atTheBounds.Inv where
  memory := rfl
  config := rfl
  depth n h := by cases h; exact Nat.le_refl 16
  returns a h := by rw [List.eq_of_mem_replicate h]; decide
  pcBound := by decide

theorem witness_StepKeepsInvariant : atTheBounds.Inv ∧ ∃ t, step atTheBounds = .next t :=
  ⟨witness_inv, cycle_answers (Config.freeRandom 0) atTheBounds⟩

theorem witness_RunsKeepInvariant : atTheBounds.Inv ∧ ∀ cfg font,
    Transaction.reset cfg font ∈ [Transaction.reset quirks defaultFont, .cycle 0, .tick] → cfg.wf = true := by
  refine ⟨witness_inv, fun cfg font h => ?_⟩
  simp only [List.mem_cons, Transaction.reset.injEq, reduceCtorEq, List.not_mem_nil, or_false] at h
  rw [h.1]; decide

theorem witness_OnlyResetLeavesFaulted : faulted.err = some ⟨.stackUnderflow, 0x200, some 0x00EE, none⟩ ∧
    ∀ cfg font, Transaction.reset cfg font ∉ [Transaction.cycle 0, .tick, .loadProgram [1], .setKey 3 true] := by
  refine ⟨by decide, fun cfg font h => ?_⟩
  simp at h

end Sys2Proof.Tests
end

/-! The random byte of a cycle (00_scope.md R7): the meaning of every instruction but CXNN carries the model's record of it
along and looks at it nowhere, so two cycles of one state that differ in the byte leave states that differ in the record. -/

namespace Sys2Proof

/-! Families 8, E and F hold no CXNN (30_encoding.md R85). -/

theorem decodeAlu_ne_rnd (w : Word) (x : Reg) (nn : Byte) : decodeAlu w ≠ .ok (.rnd x nn) := by
  unfold decodeAlu; split <;> simp

theorem decodeKey_ne_rnd (w : Word) (x : Reg) (nn : Byte) : decodeKey w ≠ .ok (.rnd x nn) := by
  unfold decodeKey; split <;> simp

theorem decodeMisc_ne_rnd (w : Word) (x : Reg) (nn : Byte) : decodeMisc w ≠ .ok (.rnd x nn) := by
  unfold decodeMisc; split <;> simp

/-- Only family C decodes to CXNN (30_encoding.md R85), so its word is the packing of the fields read. -/
theorem encode_rnd_of_decodeWord {w : Word} {x : Reg} {nn : Byte} (h : decodeWord w = .ok (.rnd x nn)) :
    encode (.rnd x nn) = w := by
  unfold decodeWord at h
  split at h
  case h_13 hfam =>
    cases h
    have hpack := packXNN_fields w
    rw [hfam] at hpack
    exact hpack
  case h_9 => exact absurd h (decodeAlu_ne_rnd w x nn)
  case h_15 => exact absurd h (decodeKey_ne_rnd w x nn)
  case h_16 => exact absurd h (decodeMisc_ne_rnd w x nn)
  case h_1 => split_ifs at h <;> cases h
  case h_6 | h_10 => split_ifs at h; cases h
  all_goals cases h

end Sys2Proof

namespace Sys2Proof.Machine

/-- A skip carries the record of the random byte along. -/
theorem State.skipIf_with_rnd (s : State) (b : Byte) (c : Bool) :
    ({ s with rnd := b } : State).skipIf c = { s.skipIf c with rnd := b } := by
  cases c <;> rfl

/-- A block load carries the record of the random byte along. -/
theorem loadRegs_with_rnd (s : State) (b : Byte) (k : Nat) (bs : List Byte) :
    loadRegs { s with rnd := b } k bs = { loadRegs s k bs with rnd := b } := by
  induction bs generalizing s k with
  | nil => rfl
  | cons a bs ih =>
    rw [loadRegs, loadRegs]
    split
    · exact ih (s.setReg _ a) (k + 1)
    · exact ih s (k + 1)

/-- An instruction other than CXNN does the same whatever the random byte is, and carries the record of it along. -/
theorem exec_with_rnd {i : Instr} (hi : ∀ x nn, i ≠ .rnd x nn) (s : State) (b : Byte) :
    ∃ t : State, exec i s = .next t ∧ exec i { s with rnd := b } = .next { t with rnd := b } := by
  cases i
  case rnd x nn => exact absurd rfl (hi x nn)
  case ret =>
    by_cases h : s.stack = []
    · exact ⟨_, execRet_nil h, execRet_nil h⟩
    · obtain ⟨top, rest, h⟩ := List.exists_cons_of_ne_nil h
      exact ⟨_, execRet_cons h, execRet_cons h⟩
  case call nnn =>
    by_cases h : s.cfg.stackCapacity = .bounded s.stack.length
    · exact ⟨_, execCall_full nnn h, execCall_full nnn h⟩
    · exact ⟨_, execCall_room nnn h, execCall_room nnn h⟩
  case ldB x =>
    rcases Nat.lt_or_ge 4096 (s.i.toNat + 3) with h | h
    · exact ⟨_, execLdB_out x h, execLdB_out x h⟩
    · exact ⟨_, execLdB_in x h, execLdB_in x h⟩
  case stRegs x =>
    rcases Nat.lt_or_ge 4096 (s.i.toNat + x.val + 1) with h | h
    · exact ⟨_, execStRegs_out x h, execStRegs_out x h⟩
    · exact ⟨_, execStRegs_in x h, execStRegs_in x h⟩
  case ldRegs x =>
    rcases Nat.lt_or_ge 4096 (s.i.toNat + x.val + 1) with h | h
    · exact ⟨_, execLdRegs_out x h, execLdRegs_out x h⟩
    · exact ⟨_, execLdRegs_in x h, loadRegs_with_rnd s b 0 _ ▸ execLdRegs_in x h⟩
  case drw x y n =>
    rcases Nat.lt_or_ge 4096 (s.i.toNat + n) with h | h
    · exact ⟨_, execDrw_out x y n h, execDrw_out x y n h⟩
    · exact ⟨_, execDrw_in x y n h, execDrw_in x y n h⟩
  case ldVxK x =>
    cases h : firstKeyPressed s.k with
    | none => exact ⟨_, execLdVxK_none x h, execLdVxK_none x h⟩
    | some key => exact ⟨_, execLdVxK_some x h, execLdVxK_some x h⟩
  case addI x =>
    refine ⟨_, rfl, ?_⟩
    simp only [exec, execAddI]
    split <;> rfl
  case seImm | sneImm | seReg | sneReg | skp | sknp =>
    exact ⟨_, rfl, congrArg Host.Outcome.next (State.skipIf_with_rnd s b _)⟩
  all_goals exact ⟨_, rfl, rfl⟩

/-- Two cycles of one state whose word is no CXNN leave states that differ in the record of the random byte at most. -/
theorem cycle_with_rnd {s : State} (hw : ∀ x nn, fetchWord s ≠ some (encode (.rnd x nn))) (rnd rnd' : Byte) :
    ∃ (t : State) (b : Byte), cycle rnd s = .next t ∧ cycle rnd' s = .next { t with rnd := b } := by
  cases he : s.err with
  | some e => exact ⟨s, s.rnd, cycle_of_faulted rnd he, cycle_of_faulted rnd' he⟩
  | none =>
    cases hf : fetchWord s with
    | none => exact ⟨_, s.rnd, cycle_of_no_fetch rnd he hf, cycle_of_no_fetch rnd' he hf⟩
    | some w =>
      cases hd : decodeWord w with
      | error d => exact ⟨_, s.rnd, cycle_of_illegal rnd he hf hd, cycle_of_illegal rnd' he hf hd⟩
      | ok i =>
        have hi : ∀ x nn, i ≠ .rnd x nn := by
          rintro x nn rfl
          exact hw x nn (by rw [hf, encode_rnd_of_decodeWord hd])
        obtain ⟨t, ht, ht'⟩ := exec_with_rnd hi (s.advance.withRandom rnd) rnd'
        exact ⟨t, rnd', (cycle_of_decode rnd he hf hd).trans ht, (cycle_of_decode rnd' he hf hd).trans ht'⟩

/-- Settles O54: whichever way the cycle goes, the byte is looked at by no instruction but CXNN. -/
theorem randomByteReachesOnlyRnd : Obligations.RandomByteReachesOnlyRnd := by
  intro rnd rnd' s t t' hw ht ht'
  obtain ⟨u, b, hu, hu'⟩ := cycle_with_rnd hw rnd rnd'
  cases hu.symm.trans ht
  cases hu'.symm.trans ht'
  rfl

end Sys2Proof.Machine

/-! What each instruction writes (10_state.md table T-R36), VF as a flag (R22), and the core that awaits a key (R34). -/

namespace Sys2Proof.Machine

/-! How the instructions with more than one branch complete. -/

/-- An instruction that answers either latches an error and changes nothing else, or raises none and leaves the latch. -/
theorem exec_next_cases {i : Instr} {s t : State} (h : exec i s = .next t) :
    (∃ k e, execError i s = some k ∧ t = { s with err := some e }) ∨ (execError i s = none ∧ t.err = s.err) := by
  obtain ⟨k, range, hk, he⟩ | ⟨u, hn, he, hu⟩ := exec_cases i s
  · cases h.symm.trans he
    exact .inl ⟨k, _, hk, rfl⟩
  · cases h.symm.trans he
    exact .inr ⟨hn, hu⟩

theorem execRet_completes {s t : State} (hn : execError .ret s = none) (h : execRet s = .next t) :
    ∃ top rest, s.stack = top :: rest ∧ t = { s with stack := rest, pc := top } := by
  cases hs : s.stack with
  | nil => simp [execError, hs] at hn
  | cons top rest =>
    cases h.symm.trans (execRet_cons hs)
    exact ⟨top, rest, rfl, rfl⟩

theorem execCall_completes {nnn : BitVec 12} {s t : State} (hn : execError (.call nnn) s = none)
    (h : execCall nnn s = .next t) :
    s.cfg.stackCapacity ≠ .bounded s.stack.length ∧ t = { s with stack := s.pc :: s.stack, pc := zextNNN nnn } := by
  have hroom : s.cfg.stackCapacity ≠ .bounded s.stack.length := fun hc => by simp [execError, hc] at hn
  cases h.symm.trans (execCall_room nnn hroom)
  exact ⟨hroom, rfl⟩

theorem execLdB_completes {x : Reg} {s t : State} (hn : execError (.ldB x) s = none) (h : execLdB x s = .next t) :
    s.i.toNat + 3 ≤ 4096 ∧ t = { s with mem := s.mem.writeList s.i.toNat (bcdDigits (s.reg x)) } := by
  have hin : s.i.toNat + 3 ≤ 4096 := by simpa [execError] using hn
  cases h.symm.trans (execLdB_in x hin)
  exact ⟨hin, rfl⟩

theorem execStRegs_completes {x : Reg} {s t : State} (hn : execError (.stRegs x) s = none)
    (h : execStRegs x s = .next t) :
    s.i.toNat + x.val + 1 ≤ 4096 ∧ t = { s with mem := s.mem.writeList s.i.toNat (regBlock x s) } := by
  have hin : s.i.toNat + x.val + 1 ≤ 4096 := by simpa [execError] using hn
  cases h.symm.trans (execStRegs_in x hin)
  exact ⟨hin, rfl⟩

theorem execLdRegs_completes {x : Reg} {s t : State} (hn : execError (.ldRegs x) s = none)
    (h : execLdRegs x s = .next t) : t = loadRegs s 0 (s.mem.readList s.i.toNat (x.val + 1)) := by
  have hin : s.i.toNat + x.val + 1 ≤ 4096 := by simpa [execError] using hn
  exact Host.Outcome.next.inj (h.symm.trans (execLdRegs_in x hin))

theorem execDrw_completes {x y : Reg} {n : Nat} {s t : State} (hn : execError (.drw x y n) s = none)
    (h : execDrw x y n s = .next t) :
    ∃ fb c, t = { s with fb := fb, redraw := true }.setReg VF (collisionFlag c) := by
  have hin : s.i.toNat + n ≤ 4096 := by simpa [execError] using hn
  exact ⟨_, _, Host.Outcome.next.inj (h.symm.trans (execDrw_in x y n hin))⟩

theorem execLdVxK_completes {x : Reg} {s t : State} (h : execLdVxK x s = .next t) :
    t = { s with pc := s.pc - 2 } ∨ ∃ n, t = s.setReg x (BitVec.ofNat 8 n) := by
  cases hk : firstKeyPressed s.k with
  | none => exact .inl (Host.Outcome.next.inj (h.symm.trans (execLdVxK_none x hk)))
  | some n => exact .inr ⟨n, Host.Outcome.next.inj (h.symm.trans (execLdVxK_some x hk))⟩

/-! The frame of every instruction. -/

/-- Only an instruction whose column names the latch raises an error. -/
theorem mayWrite_err_of_execError {i : Instr} {s : State} {k : ErrorKind} (h : execError i s = some k) :
    (mayWrite i s).err = true := by
  cases i
  case ret | call | ldB | stRegs | ldRegs | drw => rfl
  all_goals cases h

/-- The frame of a latched error. -/
theorem OnlyWrites.latch {w : Writes} (hw : w.err = true) (s : State) (e : ErrRecord) :
    OnlyWrites w s { s with err := some e } :=
  { OnlyWrites.rfl w s with err := fun h => absurd (hw.symm.trans h) (by decide) }

/-- A further write of a register the frame names. -/
theorem OnlyWrites.then_setReg {w : Writes} {s t : State} (h : OnlyWrites w s t) {r : Reg} (hr : r ∈ w.regs) (b : Byte) :
    OnlyWrites w s (t.setReg r b) :=
  { h with
    regs := fun q hq => by
      have hne : q ≠ r := fun e => hq (e ▸ hr)
      rw [State.reg_setReg, if_neg hne]
      exact h.regs q hq }

/-- The frame of a block load from memory (42_index_and_memory.md R145). -/
theorem OnlyWrites.load_block {w : Writes} {x : Reg} (hw : ∀ r, r ≤ x → r ∈ w.regs) (s : State) (a : Nat) :
    OnlyWrites w s (loadRegs s 0 (s.mem.readList a (x.val + 1))) := by
  have hregs : ∀ r, r ∉ w.regs → (loadRegs s 0 (s.mem.readList a (x.val + 1))).reg r = s.reg r := by
    intro r hr
    rw [reg_loadRegs_readList, if_neg fun hle => hr (hw r hle)]
  rw [loadRegs_eq] at hregs ⊢
  exact { OnlyWrites.rfl w s with regs := hregs }

/-- Putting the bytes of memory back keeps a frame. -/
theorem OnlyWrites.keep_mem {w : Writes} {s t : State} (h : OnlyWrites w s t) : OnlyWrites w s { t with mem := s.mem } :=
  { h with memory := fun _ _ => Eq.refl _ }

/-- Memory apart, every instruction writes only what its column of the access matrix names (10_state.md table T-R36). -/
theorem exec_frame {i : Instr} {s t : State} (h : exec i s = .next t) :
    OnlyWrites (mayWrite i s) s { t with mem := s.mem } := by
  obtain ⟨k, e, hk, rfl⟩ | ⟨hn, -⟩ := exec_next_cases h
  · exact OnlyWrites.latch (mayWrite_err_of_execError hk) s e
  have unchanged := OnlyWrites.rfl (mayWrite i s) s
  cases i
  case ldB x =>
    obtain ⟨-, rfl⟩ := execLdB_completes hn h
    exact unchanged
  case stRegs x =>
    obtain ⟨-, rfl⟩ := execStRegs_completes hn h
    exact unchanged
  all_goals apply OnlyWrites.keep_mem
  case ret =>
    obtain ⟨top, rest, -, rfl⟩ := execRet_completes hn h
    exact { unchanged with pc := nofun, stack := nofun }
  case call nnn =>
    obtain ⟨-, rfl⟩ := execCall_completes hn h
    exact { unchanged with pc := nofun, stack := nofun }
  case ldRegs x =>
    obtain rfl := execLdRegs_completes hn h
    exact OnlyWrites.load_block (fun r hr => by simpa [mayWrite] using hr) s _
  case drw x y n =>
    obtain ⟨fb, c, rfl⟩ := execDrw_completes hn h
    have drawn : OnlyWrites (mayWrite (.drw x y n) s) s { s with fb := fb, redraw := true } :=
      { unchanged with fb := nofun, redraw := nofun }
    exact drawn.then_setReg (List.mem_singleton_self VF) _
  case ldVxK x =>
    obtain rfl | ⟨n, rfl⟩ := execLdVxK_completes h
    · exact { unchanged with pc := nofun }
    · exact unchanged.then_setReg (List.mem_singleton_self x) _
  case addI x =>
    have moved : OnlyWrites (mayWrite (.addI x) s) s { s with i := s.i + zextByte (s.reg x) } :=
      { unchanged with i := nofun }
    cases h
    split
    case isTrue hf => exact moved.then_setReg (by simp [mayWrite, hf]) _
    case isFalse => exact moved
  case cls =>
    cases h
    exact { unchanged with fb := nofun, redraw := nofun }
  case ldI | ldF =>
    cases h
    exact { unchanged with i := nofun }
  case ldDtVx =>
    cases h
    exact { unchanged with dt := nofun }
  case ldStVx =>
    cases h
    exact { unchanged with st := nofun }
  case jp | jpOff =>
    cases h
    exact OnlyWrites.jumpTo s _
  case seImm | sneImm | seReg | sneReg | skp | sknp =>
    cases h
    exact OnlyWrites.skipIf s _
  case addReg | sub | shr | subn | shl =>
    cases h
    exact OnlyWrites.setRegFlag s _ _ _
  all_goals
    cases h
    exact OnlyWrites.setReg s _ _

/-- What an instruction can do to memory: leave it, or store a list of bytes, all of them inside memory, over the range its
column names (20_memory.md R57). -/
theorem exec_mem {i : Instr} {s t : State} (h : exec i s = .next t) :
    t.mem = s.mem ∨ ∃ bs : List Byte, bs.length = (mayWrite i s).memLen ∧ (mayWrite i s).memAt + bs.length ≤ 4096 ∧
      t.mem = s.mem.writeList (mayWrite i s).memAt bs := by
  obtain ⟨k, e, -, rfl⟩ | ⟨hn, -⟩ := exec_next_cases h
  · exact .inl rfl
  cases i
  case ldB x =>
    obtain ⟨hin, rfl⟩ := execLdB_completes hn h
    exact .inr ⟨bcdDigits (s.reg x), rfl, hin, rfl⟩
  case stRegs x =>
    obtain ⟨hin, rfl⟩ := execStRegs_completes hn h
    exact .inr ⟨regBlock x s, length_regBlock x s, by rw [length_regBlock]; exact hin, rfl⟩
  all_goals refine .inl ?_
  case ret =>
    obtain ⟨top, rest, -, rfl⟩ := execRet_completes hn h
    rfl
  case call nnn =>
    obtain ⟨-, rfl⟩ := execCall_completes hn h
    rfl
  case ldRegs x =>
    rw [execLdRegs_completes hn h, loadRegs_eq]
  case drw x y n =>
    obtain ⟨fb, c, rfl⟩ := execDrw_completes hn h
    rfl
  case ldVxK x =>
    obtain rfl | ⟨n, rfl⟩ := execLdVxK_completes h <;> rfl
  case addI x =>
    cases h
    split <;> rfl
  all_goals
    cases h
    simp

/-- Settles O50: the frame apart from memory, and the bytes outside the range of a store. -/
theorem instructionsWriteOnlyTheirColumn : Obligations.InstructionsWriteOnlyTheirColumn := by
  intro i s t hwf h
  refine { exec_frame h with memory := fun a ha => ?_ }
  obtain hm | ⟨bs, hlen, hin, hm⟩ := exec_mem h
  · rw [hm]
  · rw [hm, Memory.read_writeList hwf hin, if_neg (by rw [hlen]; exact ha)]

/-! VF as a flag -/

/-- A flag is 0 or 1 (10_state.md R22). -/
theorem bit_eq_zero_or_one (b : Bool) : bit b = 0 ∨ bit b = 1 := by
  cases b
  · exact .inl rfl
  · exact .inr rfl

/-- Settles O28: a completing flag writer ends with a flag computation written to VF; the rest is the frame. -/
theorem flagIsZeroOrOne : Obligations.FlagIsZeroOrOne := by
  intro i s t _ h ht
  refine ⟨fun hflag => ?_, (exec_frame h).regs VF⟩
  obtain ⟨k, e, -, rfl⟩ | ⟨hn, -⟩ := exec_next_cases h
  · cases ht
  suffices hbit : ∃ b, t.reg VF = bit b by
    obtain ⟨b, hb⟩ := hbit
    rw [hb]
    exact bit_eq_zero_or_one b
  cases i
  case drw x y n =>
    obtain ⟨fb, c, rfl⟩ := execDrw_completes hn h
    exact ⟨c, by rw [State.reg_setReg, if_pos rfl]; rfl⟩
  case addI x =>
    have hcfg : s.cfg.iOvfFlag = true := hflag
    cases h
    exact ⟨_, by rw [if_pos hcfg, State.reg_setReg, if_pos rfl]; rfl⟩
  case addReg | sub | shr | subn | shl =>
    cases h
    exact ⟨_, by rw [State.reg_setRegFlag, if_pos rfl]; rfl⟩
  all_goals cases hflag

/-! The core that awaits a key -/

/-- Family F, NN = 0A (30_encoding.md R85). -/
theorem decodeWord_encode_ldVxK (x : Reg) : decodeWord (encode (.ldVxK x)) = .ok (.ldVxK x) := by
  simp [encode, decodeWord, decodeMisc]

/-- Settles O44: the advance and the step back of FX0A cancel. -/
theorem awaitingKeyRepeats : Obligations.AwaitingKeyRepeats := by
  rintro rnd s hs ⟨x, hfetch, hk⟩
  calc cycle rnd s
      = execLdVxK x (s.advance.withRandom rnd) := cycle_of_decode rnd hs hfetch (decodeWord_encode_ldVxK x)
    _ = .next { s.advance.withRandom rnd with pc := s.pc + 2 - 2 } :=
        execLdVxK_none x (firstKeyPressed_eq_none.mpr hk)
    _ = .next { s with rnd := rnd, draws := s.draws + 1 } := by rw [advance_pc_sub]; rfl

end Sys2Proof.Machine

/-! The state after reset (10_state.md table T-R35), and the invariant of the machine: it holds after every reset and every
transaction keeps it (10_state.md R24, R25, R31; 00_scope.md R6). -/

namespace Sys2Proof.Machine

/-! Reset -/

/-- The font fits in memory. -/
theorem font_in_memory (font : Font) : fontBase + font.toList.length ≤ 4096 := by
  rw [Vector.length_toList]; decide

/-- Memory after a reset is in canonical form. -/
theorem wf_resetWith (cfg : Config) (font : Font) : (resetWith cfg font).mem.wf = true :=
  Memory.wf_writeList rfl (font_in_memory font)

/-- Memory after a reset: the font at its place and 0 elsewhere (10_state.md table T-R35). -/
theorem read_resetWith (cfg : Config) (font : Font) (a : Nat) :
    (resetWith cfg font).mem.read a = if 0x050 ≤ a ∧ a < 0x0A0 then font.toList.getD (a - 0x050) 0 else 0 := by
  rw [resetWith, Memory.read_writeList rfl (font_in_memory font), Vector.length_toList]
  split
  · rfl
  · rename_i hout
    exact if_neg hout

/-- A reset to the default font leaves the memory an empty list stands for (log 9). -/
theorem mem_resetWith_defaultFont (cfg : Config) : (resetWith cfg defaultFont).mem = [] := by
  refine Memory.eq_of_read_eq (wf_resetWith cfg defaultFont) rfl fun a => ?_
  rw [read_resetWith]
  rfl

/-- Settles O5: registers and pixels by their own lemmas, memory by what it reads as after a reset. -/
theorem resetLeavesTableValues : Obligations.ResetLeavesTableValues := by
  intro cfg font s
  refine ⟨_, rfl, State.reset_reg, rfl, rfl, rfl, rfl, rfl, Frame.get_blank, rfl, rfl, rfl, rfl,
    wf_resetWith cfg font, fun n => ?_, fun a ha => ?_⟩
  · have hn := n.isLt
    rw [read_resetWith cfg font, if_pos (by omega), Nat.add_sub_cancel_left]
    simp
  · rw [read_resetWith cfg font, if_neg (by omega)]

/-- The invariant holds after every reset to an allowed configuration; the count of random bytes is no matter. -/
theorem inv_resetWith {cfg : Config} (hcfg : cfg.wf = true) (font : Font) (n : Nat) :
    State.Inv { resetWith cfg font with draws := n } where
  memory := wf_resetWith cfg font
  config := hcfg
  depth n _ := Nat.zero_le n
  returns := nofun
  pcBound := by
    change (BitVec.ofNat 16 progBase).toNat ≤ 0x10FE
    decide

/-- Settles O6: the one field to compare is memory, and the invariant is that of any reset. -/
theorem resetMeetsInvariant : Obligations.ResetMeetsInvariant := by
  have heq : State.reset = resetWith Config.default defaultFont :=
    calc State.reset
        = { State.reset with mem := (resetWith Config.default defaultFont).mem } := by rw [mem_resetWith_defaultFont]; rfl
      _ = resetWith Config.default defaultFont := rfl
  refine ⟨heq, ?_⟩
  rw [heq]
  exact inv_resetWith rfl defaultFont 0

/-! One instruction -/

/-- The invariant speaks of memory, the configuration, the stack and the program counter alone. -/
theorem State.Inv.of_eq {s t : State} (hs : s.Inv) (hmem : t.mem = s.mem) (hcfg : t.cfg = s.cfg)
    (hstack : t.stack = s.stack) (hpc : t.pc.toNat ≤ 0x10FE) : t.Inv where
  memory := hmem ▸ hs.memory
  config := hcfg ▸ hs.config
  depth := hcfg ▸ hstack ▸ hs.depth
  returns := hstack ▸ hs.returns
  pcBound := hpc

/-- An instruction keeps memory in its canonical form. -/
theorem exec_keeps_wf {i : Instr} {s t : State} (hs : s.mem.wf = true) (h : exec i s = .next t) : t.mem.wf = true := by
  obtain hm | ⟨bs, -, hin, hm⟩ := exec_mem h
  · rw [hm]; exact hs
  · rw [hm]; exact Memory.wf_writeList hs hin

/-- What an instruction can do to the stack: leave it, pop an address off it, or push the advanced program counter on one
with room (10_state.md R25). -/
theorem exec_stack {i : Instr} {s t : State} (h : exec i s = .next t) :
    t.stack = s.stack ∨ (∃ top, s.stack = top :: t.stack) ∨
      (s.cfg.stackCapacity ≠ .bounded s.stack.length ∧ t.stack = s.pc :: s.stack) := by
  obtain ⟨k, e, -, rfl⟩ | ⟨hn, -⟩ := exec_next_cases h
  · exact .inl rfl
  cases i
  case ret =>
    obtain ⟨top, rest, hs, rfl⟩ := execRet_completes hn h
    exact .inr (.inl ⟨top, hs⟩)
  case call nnn =>
    obtain ⟨hroom, rfl⟩ := execCall_completes hn h
    exact .inr (.inr ⟨hroom, rfl⟩)
  all_goals exact .inl ((exec_frame h).stack rfl)

/-- A 12-bit address fits in the program counter as it is. -/
theorem toNat_zextNNN (nnn : BitVec 12) : (zextNNN nnn).toNat = nnn.toNat := by
  have := nnn.isLt
  rw [zextNNN, BitVec.toNat_setWidth]
  omega

/-- The largest target of a jump with offset is 0x0FFF + 0xFF = 0x10FE (10_state.md R24). -/
theorem toNat_jumpOff_le (nnn : BitVec 12) (b : Byte) : (zextNNN nnn + zextByte b).toNat ≤ 0x10FE := by
  have := nnn.isLt
  have := b.isLt
  rw [BitVec.toNat_add, toNat_zextNNN, zextByte, BitVec.toNat_setWidth]
  omega

/-- From an advanced program counter and return addresses within memory, no instruction leaves the program counter above
0x10FE (10_state.md R24). -/
theorem exec_pc_le {i : Instr} {s t : State} (hreturns : ∀ a ∈ s.stack, a.toNat ≤ 4096) (hlow : 2 ≤ s.pc.toNat)
    (hhigh : s.pc.toNat ≤ 4096) (h : exec i s = .next t) : t.pc.toNat ≤ 0x10FE := by
  have hskip (c : Bool) : (s.skipIf c).pc.toNat ≤ 0x10FE := by
    rw [State.skipIf_pc]
    split
    · bv_omega
    · omega
  have hkept (hpc : t.pc = s.pc) : t.pc.toNat ≤ 0x10FE := by rw [hpc]; omega
  obtain ⟨k, e, -, rfl⟩ | ⟨hn, -⟩ := exec_next_cases h
  · exact hkept rfl
  cases i
  case ret =>
    obtain ⟨top, rest, hs, rfl⟩ := execRet_completes hn h
    have htop := hreturns top (hs ▸ List.mem_cons_self)
    exact htop.trans (by decide)
  case call nnn =>
    obtain ⟨-, rfl⟩ := execCall_completes hn h
    have := nnn.isLt
    simp only [toNat_zextNNN]
    omega
  case jp nnn =>
    cases h
    have := nnn.isLt
    rw [State.jumpTo_pc, toNat_zextNNN]
    omega
  case jpOff nnn =>
    cases h
    exact toNat_jumpOff_le nnn _
  case ldVxK x =>
    obtain rfl | ⟨n, rfl⟩ := execLdVxK_completes h
    · change (s.pc - 2).toNat ≤ 0x10FE
      bv_omega
    · exact hkept rfl
  case seImm | sneImm | seReg | sneReg | skp | sknp =>
    cases h
    exact hskip _
  all_goals exact hkept ((exec_frame h).pc rfl)

/-- An instruction keeps the bound of the stack's depth (10_state.md R25). -/
theorem exec_keeps_depth {i : Instr} {s t : State} {n : Nat} (hs : s.stack.length ≤ n)
    (hn : s.cfg.stackCapacity = .bounded n) (h : exec i s = .next t) : t.stack.length ≤ n := by
  obtain hst | ⟨top, hst⟩ | ⟨hroom, hst⟩ := exec_stack h
  · rw [hst]; exact hs
  · rw [hst, List.length_cons] at hs
    omega
  · have hne : n ≠ s.stack.length := fun e => hroom (e ▸ hn)
    rw [hst, List.length_cons]
    omega

/-- Every address on the stack after an instruction was there before or is the advanced program counter (10_state.md R25). -/
theorem mem_stack_of_exec {i : Instr} {s t : State} (h : exec i s = .next t) {a : Word} (ha : a ∈ t.stack) :
    a ∈ s.stack ∨ a = s.pc := by
  obtain hst | ⟨top, hst⟩ | ⟨-, hst⟩ := exec_stack h
  · exact .inl (hst ▸ ha)
  · exact .inl (hst ▸ List.mem_cons_of_mem top ha)
  · exact (List.mem_cons.mp (hst ▸ ha)).symm

/-- An instruction keeps the invariant, from a program counter that has been advanced past a word in memory. -/
theorem exec_keeps_inv {i : Instr} {s t : State} (hs : s.Inv) (hlow : 2 ≤ s.pc.toNat) (hhigh : s.pc.toNat ≤ 4096)
    (h : exec i s = .next t) : t.Inv := by
  have hcfg : t.cfg = s.cfg := (exec_frame h).cfg
  exact
    { memory := exec_keeps_wf hs.memory h
      config := hcfg ▸ hs.config
      depth := fun n hn => exec_keeps_depth (hs.depth n (hcfg ▸ hn)) (hcfg ▸ hn) h
      returns := fun a ha => (mem_stack_of_exec h ha).elim (hs.returns a) fun e => e ▸ ⟨hlow, hhigh⟩
      pcBound := exec_pc_le (fun a ha => (hs.returns a ha).2) hlow hhigh h }

/-! One transaction, and runs of them -/

/-- A cycle keeps the invariant, whatever its random byte. -/
theorem cycle_keeps_inv {rnd : Byte} {s t : State} (hs : s.Inv) (h : cycle rnd s = .next t) : t.Inv := by
  cases herr : s.err with
  | some e =>
    cases h.symm.trans (cycle_of_faulted rnd herr)
    exact hs
  | none =>
    cases hf : fetchWord s with
    | none =>
      cases h.symm.trans (cycle_of_no_fetch rnd herr hf)
      exact hs.of_eq rfl rfl rfl hs.pcBound
    | some w =>
      have hpc := pc_le_of_fetchWord hf
      have hadv : (s.pc + 2).toNat = s.pc.toNat + 2 := toNat_advance_pc hpc
      have hlow : 2 ≤ (s.pc + 2).toNat := by omega
      have hhigh : (s.pc + 2).toNat ≤ 4096 := by omega
      have hadvInv : s.advance.Inv := hs.of_eq rfl rfl rfl (hhigh.trans (by decide))
      cases hd : decodeWord w with
      | error d =>
        cases h.symm.trans (cycle_of_illegal rnd herr hf hd)
        exact hadvInv.of_eq rfl rfl rfl hadvInv.pcBound
      | ok i =>
        rw [cycle_of_decode rnd herr hf hd] at h
        have hentry : (s.advance.withRandom rnd).Inv := hadvInv.of_eq rfl rfl rfl hadvInv.pcBound
        exact exec_keeps_inv hentry hlow hhigh h

/-- Settles O55: a step is a cycle. -/
theorem stepKeepsInvariant : Obligations.StepKeepsInvariant := fun _ _ hs h => cycle_keeps_inv hs h

/-- `load_program` keeps the invariant. -/
theorem loadProgram_keeps_inv {s : State} (hs : s.Inv) (bytes : List Byte) : (loadProgram bytes s).1.Inv := by
  unfold loadProgram
  split
  case isTrue => exact hs
  case isFalse hfits =>
    have hin : progBase + bytes.length ≤ 4096 := by simp only [progBase, romMax] at hfits ⊢; omega
    exact { hs with memory := Memory.wf_writeList hs.memory hin }

/-- Every transaction answers, and keeps the invariant; a reset needs a configuration R6 allows. -/
theorem transact_keeps_inv {s : State} (hs : s.Inv) (tr : Transaction)
    (hcfg : ∀ cfg font, tr = .reset cfg font → cfg.wf = true) :
    ∃ t reply, transact tr s = .next (t, reply) ∧ t.Inv := by
  cases tr with
  | reset cfg font => exact ⟨_, _, rfl, inv_resetWith (hcfg cfg font rfl) font s.draws⟩
  | loadProgram bytes => exact ⟨_, _, rfl, loadProgram_keeps_inv hs bytes⟩
  | cycle rnd =>
    obtain ⟨t, ht⟩ := cycle_answers rnd s
    exact ⟨t, .status t.cycleStatus, by simp only [transact, ht], cycle_keeps_inv hs ht⟩
  | setKey | tick | clearRedraw => exact ⟨_, _, rfl, hs.of_eq rfl rfl rfl hs.pcBound⟩
  | getDisplay | getRedraw | debugSnapshot => exact ⟨_, _, rfl, hs⟩

/-- Settles O56, by induction on the list of transactions. -/
theorem runsKeepInvariant : Obligations.RunsKeepInvariant := by
  intro ts
  induction ts with
  | nil => exact fun s hs _ => ⟨s, rfl, hs⟩
  | cons tr ts ih =>
    intro s hs hcfg
    obtain ⟨u, reply, hu, huinv⟩ := transact_keeps_inv hs tr fun cfg font e => hcfg cfg font (e ▸ List.mem_cons_self)
    obtain ⟨t, ht, htinv⟩ := ih u huinv fun cfg font hmem => hcfg cfg font (List.mem_cons_of_mem tr hmem)
    exact ⟨t, by simp only [runTransactions, hu, ht], htinv⟩

end Sys2Proof.Machine

/-! Ranges of memory (20_memory.md R56, R57), and who writes and reads them: `load_program` (R60), `FX55`, and the fetch of a
cycle (R53, R66). -/

namespace Sys2Proof.Machine

/-! A list of bytes written to memory -/

/-- The k-th byte of a list written at `a` is read back at `a + k` (20_memory.md R57). -/
theorem Memory.getElem?_eq_read_writeList {m : Memory} (hm : m.wf = true) {a : Nat} {bs : List Byte}
    (ha : a + bs.length ≤ 4096) {k : Nat} (hk : k < bs.length) : bs[k]? = some ((m.writeList a bs).read (a + k)) := by
  have hin : a ≤ a + k ∧ a + k < a + bs.length := by omega
  rw [Memory.read_writeList hm ha, if_pos hin, Nat.add_sub_cancel_left, List.getD_eq_getElem _ _ hk,
    List.getElem?_eq_getElem hk]

/-- An address outside the range a list is written over reads as before (20_memory.md R57). -/
theorem Memory.read_writeList_outside {m : Memory} (hm : m.wf = true) {a : Nat} {bs : List Byte}
    (ha : a + bs.length ≤ 4096) {c : Nat} (hc : ¬ (a ≤ c ∧ c < a + bs.length)) :
    (m.writeList a bs).read c = m.read c := by
  rw [Memory.read_writeList hm ha, if_neg hc]

/-- Settles O8: MemWrite is the write of the list when the range is in memory. -/
theorem memWriteStoresTheRange : Obligations.MemWriteStoresTheRange := by
  intro m addr v hm
  refine ⟨memWrite_eq_none.mpr, fun hin => ⟨m.writeList addr v, ?_, ?_, ?_, ?_⟩⟩
  · exact memWrite_eq_some.mpr ⟨hin, rfl⟩
  · exact Memory.wf_writeList hm hin
  · exact fun k hk => Memory.getElem?_eq_read_writeList hm hin hk
  · exact fun a ha => Memory.read_writeList_outside hm hin ha

/-- Settles O7: MemRead is the list of the bytes read one by one when the range is in memory. -/
theorem memReadReturnsTheRange : Obligations.MemReadReturnsTheRange := by
  intro m addr n
  refine ⟨memRead_eq_none.mpr, fun hin => ⟨m.readList addr n, ?_, ?_, ?_⟩⟩
  · exact memRead_eq_some.mpr ⟨hin, rfl⟩
  · exact m.length_readList addr n
  · exact m.getElem?_readList addr n

/-! `load_program` -/

/-- A program that fits is written from 0x200 on (20_memory.md R60). -/
theorem loadProgram_of_le {bytes : List Byte} (h : bytes.length ≤ 3584) (s : State) :
    loadProgram bytes s = ({ s with mem := s.mem.writeList 0x200 bytes }, .ok) :=
  if_neg (Nat.not_lt.mpr h)

/-- A program too large for memory is refused (20_memory.md R60, 60_exceptions.md R183). -/
theorem loadProgram_of_gt {bytes : List Byte} (h : 3584 < bytes.length) (s : State) :
    loadProgram bytes s = (s, .romTooLarge) :=
  if_pos h

/-- Settles O49: a program of at most 3584 bytes ends inside memory, so its write is that of a range. -/
theorem loadProgramWritesFromProgBase : Obligations.LoadProgramWritesFromProgBase := by
  intro bytes s hm
  constructor
  · intro hfits
    have hin : 0x200 + bytes.length ≤ 4096 := by omega
    refine ⟨{ s with mem := s.mem.writeList 0x200 bytes }, ?_, ?_, ?_, rfl⟩
    · rw [transact, loadProgram_of_le hfits]
    · exact fun k hk => Memory.getElem?_eq_read_writeList hm hin hk
    · exact fun a ha => Memory.read_writeList_outside hm hin ha
  · intro hlarge
    rw [transact, loadProgram_of_gt hlarge]

/-! The fetch -/

/-- Where a register block is stored, the byte at `a + r` is V_r (42_index_and_memory.md R144). -/
theorem read_writeList_regBlock {m : Memory} (hm : m.wf = true) {a : Nat} {x r : Reg} (ha : a + x.val + 1 ≤ 4096)
    (hr : r.val ≤ x.val) (s : State) : (m.writeList a (regBlock x s)).read (a + r.val) = s.reg r := by
  have hlen := length_regBlock x s
  have hin : a ≤ a + r.val ∧ a + r.val < a + (regBlock x s).length := by omega
  rw [Memory.read_writeList hm (by omega), if_pos hin, Nat.add_sub_cancel_left, getD_regBlock x s r.val r.isLt hr]

/-- Settles O36: the two bytes at `pc` are those of the two registers stored there. -/
theorem storeIsSeenByNextFetch : Obligations.StoreIsSeenByNextFetch := by
  intro x r q s t hm hin h hpc hq hqx
  have hqx : q.val ≤ x.val := hqx
  have hrx : r.val ≤ x.val := by omega
  have hnext : s.pc.toNat + 1 = s.i.toNat + q.val := by omega
  cases h.symm.trans (execStRegs_in x hin)
  rw [fetchWord_of_le (by dsimp only; omega)]
  dsimp only
  rw [hnext, hpc, read_writeList_regBlock hm hin hrx, read_writeList_regBlock hm hin hqx]

/-- Settles O9: the word the fetch reads is the one that decodes, and a step is a cycle with the free byte. -/
theorem stepRunsTheDecodedInstruction : Obligations.StepRunsTheDecodedInstruction := fun rnd s _ hs hpc hd =>
  have hf := fetchWord_of_le hpc
  ⟨cycle_of_decode rnd hs hf hd, cycle_of_decode (Config.freeRandom s.draws) hs hf hd⟩

end Sys2Proof.Machine

/-! The encoding (30_encoding.md): decoder and encoder undo each other on the whole instruction set (table T-R84, R85), the
table's (match, mask) pairs pick out the same words (R84), and an illegal word fails its cycle (R86). -/

namespace Sys2Proof

/-! Decode of encode -/

/-- R85 on an encoded word: the family, and in families 5, 8, 9, E and F the sub-opcode, select the row it was made for. -/
theorem decodeWord_encode {i : Instr} (hi : i.WellFormed) : decodeWord (encode i) = .ok i := by
  cases i
  case cls | ret => rfl
  case jp | call | ldI | jpOff => simp [encode, decodeWord]
  case seImm | sneImm | ldImm | addImm | rnd => simp [encode, decodeWord]
  case seReg | sneReg => simp [encode, decodeWord]
  case drw n => simp [encode, decodeWord, Nat.mod_eq_of_lt (of_decide_eq_true hi)]
  case ldReg | orReg | andReg | xorReg | addReg | sub | shr | subn | shl => simp [encode, decodeWord, decodeAlu]
  case skp | sknp => simp [encode, decodeWord, decodeKey]
  all_goals simp [encode, decodeWord, decodeMisc]

/-- The two bytes of an instruction are read and the bytes after them are left (20_memory.md R53). -/
theorem decodeBytes_encodeBytes {i : Instr} (hi : i.WellFormed) (rest : List Byte) :
    decodeBytes (encodeBytes i ++ rest) = .ok (i, rest) := by
  simp [encodeBytes, decodeBytes, decodeWord_encode hi]

/-- Settles O2: as a word by the case split on the instruction, as bytes because a word is its two bytes. -/
theorem decodeOfEncode : Obligations.DecodeOfEncode := fun _ rest hi =>
  ⟨decodeWord_encode hi, decodeBytes_encodeBytes hi rest⟩

/-! Encode of decode. A word is known once its fixed fields are: the packing of those and of its operand fields. -/

theorem packNNN_of_famOf {w : Word} {f : BitVec 4} (hf : famOf w = f) : packNNN f (nnnOf w) = w :=
  hf ▸ packNNN_fields w

theorem packXNN_of_famOf {w : Word} {f : BitVec 4} (hf : famOf w = f) : packXNN f (xOf w) (nnOf w) = w :=
  hf ▸ packXNN_fields w

theorem packXNN_of_famOf_nnOf {w : Word} {f : BitVec 4} {nn : Byte} (hf : famOf w = f) (hnn : nnOf w = nn) :
    packXNN f (xOf w) nn = w :=
  hnn ▸ packXNN_of_famOf hf

theorem packXYN_of_famOf_nOf {w : Word} {f n : BitVec 4} (hf : famOf w = f) (hn : nOf w = n) :
    packXYN f (xOf w) (yOf w) n = w :=
  hf ▸ hn ▸ packXYN_fields w

/-- `w` is the word of the well-formed instruction `i`. -/
def Encodes (w : Word) (i : Instr) : Prop := i.WellFormed ∧ encode i = w

/-- DXYN's word from its fields; N is at most 15 for being four bits. -/
theorem encodes_drw {w : Word} (hf : famOf w = 0xD#4) : Encodes w (.drw (xOf w) (yOf w) (nOf w).toNat) :=
  ⟨decide_eq_true (nOf w).isLt, by
    rw [encode, BitVec.ofNat_toNat, BitVec.setWidth_eq]
    exact packXYN_of_famOf_nOf hf rfl⟩

theorem encodes_of_decodeAlu {w : Word} {i : Instr} (hf : famOf w = 0x8#4) (h : decodeAlu w = .ok i) : Encodes w i := by
  unfold decodeAlu at h
  split at h
  case h_10 => cases h
  all_goals
    cases h
    exact ⟨rfl, packXYN_of_famOf_nOf hf ‹_›⟩

theorem encodes_of_decodeKey {w : Word} {i : Instr} (hf : famOf w = 0xE#4) (h : decodeKey w = .ok i) : Encodes w i := by
  unfold decodeKey at h
  split at h
  case h_3 => cases h
  all_goals
    cases h
    exact ⟨rfl, packXNN_of_famOf_nnOf hf ‹_›⟩

theorem encodes_of_decodeMisc {w : Word} {i : Instr} (hf : famOf w = 0xF#4) (h : decodeMisc w = .ok i) : Encodes w i := by
  unfold decodeMisc at h
  split at h
  case h_10 => cases h
  all_goals
    cases h
    exact ⟨rfl, packXNN_of_famOf_nnOf hf ‹_›⟩

/-- What a word decodes to, family by family (R85). -/
theorem encodes_of_decodeWord {w : Word} {i : Instr} (h : decodeWord w = .ok i) : Encodes w i := by
  unfold decodeWord at h
  split at h
  case h_1 =>
    split_ifs at h with h0 h1
    · cases h
      exact ⟨rfl, h0.symm⟩
    · cases h
      exact ⟨rfl, h1.symm⟩
  case h_2 hf | h_3 hf | h_11 hf | h_12 hf =>
    cases h
    exact ⟨rfl, packNNN_of_famOf hf⟩
  case h_4 hf | h_5 hf | h_7 hf | h_8 hf | h_13 hf =>
    cases h
    exact ⟨rfl, packXNN_of_famOf hf⟩
  case h_6 hf | h_10 hf =>
    split_ifs at h with hn
    cases h
    exact ⟨rfl, packXYN_of_famOf_nOf hf hn⟩
  case h_9 hf => exact encodes_of_decodeAlu hf h
  case h_14 hf =>
    cases h
    exact encodes_drw hf
  case h_15 hf => exact encodes_of_decodeKey hf h
  case h_16 =>
    have hf : famOf w = 0xF#4 := nibble_eq_15 _ (by simp_all [← BitVec.toNat_inj, List.range_succ])
    exact encodes_of_decodeMisc hf h

/-- Settles O3: each branch of the decoder keeps every field of the word, fixed or operand. -/
theorem encodeOfDecode : Obligations.EncodeOfDecode := fun _ _ h => encodes_of_decodeWord h

/-! The opcode table -/

/-- A row depends on no operand, so each case is a closed fact about the table. -/
theorem row_mem_opcodeTable (i : Instr) : i.row ∈ opcodeTable := by
  cases i <;> exact of_decide_eq_true rfl

/-- The word of an instruction selects the instruction's row, by the row's format. -/
theorem encode_selects_row (i : Instr) : encode i &&& i.row.mask = i.row.value := by
  cases i
  case cls | ret => rfl
  case jp | call | ldI | jpOff => exact Laws.RowMatch.nnn rfl _
  case seImm | sneImm | ldImm | addImm | rnd => exact Laws.RowMatch.xnn rfl _ _
  case drw => exact Laws.RowMatch.xyn rfl _ _ _
  case seReg | sneReg => exact Laws.RowMatch.xys rfl _ _
  case ldReg | orReg | andReg | xorReg | addReg | sub | shr | subn | shl => exact Laws.RowMatch.xys rfl _ _
  all_goals exact Laws.RowMatch.xss rfl _

/-- Masked by its row, a word that decodes is the row's match value. -/
theorem selects_row_of_decodeWord {w : Word} {i : Instr} (h : decodeWord w = .ok i) : w &&& i.row.mask = i.row.value := by
  obtain ⟨-, rfl⟩ := encodes_of_decodeWord h
  exact encode_selects_row i

/-! What a match says of the fields the mask covers (T-R82): the family, and N or NN where the row has a sub-opcode. -/

theorem famOf_of_match {w : Word} {f : BitVec 4} (h : w &&& 0xF000 = packXYN f 0 0 0) : famOf w = f := by
  rw [and_F000] at h
  simpa using congrArg famOf h

theorem packXYN_of_match {w : Word} {f n : BitVec 4} (h : w &&& 0xF00F = packXYN f 0 0 n) :
    packXYN f (xOf w) (yOf w) n = w := by
  rw [and_F00F] at h
  exact packXYN_of_famOf_nOf (by simpa using congrArg famOf h) (by simpa using congrArg nOf h)

theorem packXNN_of_match {w : Word} {f : BitVec 4} {nn : Byte} (h : w &&& 0xF0FF = packXNN f 0 nn) :
    packXNN f (xOf w) nn = w := by
  rw [and_F0FF] at h
  exact packXNN_of_famOf_nnOf (by simpa using congrArg famOf h) (by simpa using congrArg nnOf h)

/-- The instruction each row of table T-R84 reads from the fields of `w`, in the table's order, whether or not `w`
selects the row. -/
def rowReadings (w : Word) : List Instr :=
  let x := xOf w
  let y := yOf w
  [.cls, .ret, .jp (nnnOf w), .call (nnnOf w), .seImm x (nnOf w), .sneImm x (nnOf w), .seReg x y, .ldImm x (nnOf w),
   .addImm x (nnOf w), .ldReg x y, .orReg x y, .andReg x y, .xorReg x y, .addReg x y, .sub x y, .shr x y, .subn x y,
   .shl x y, .sneReg x y, .ldI (nnnOf w), .jpOff (nnnOf w), .rnd x (nnOf w), .drw x y (nOf w).toNat, .skp x, .sknp x,
   .ldVxDt x, .ldVxK x, .ldDtVx x, .ldStVx x, .addI x, .ldF x, .ldB x, .stRegs x, .ldRegs x]

theorem map_row_rowReadings (w : Word) : (rowReadings w).map Instr.row = opcodeTable := rfl

/-- A word that selects a row is the word of the instruction the row reads from it: the mask fixes every bit that is in no
operand field. -/
theorem encodes_of_mem_rowReadings {w : Word} {i : Instr} (hi : i ∈ rowReadings w) (h : w &&& i.row.mask = i.row.value) :
    Encodes w i := by
  cases i
  case cls | ret => exact ⟨rfl, h.symm.trans (and_FFFF w)⟩
  case jp nnn | call nnn | ldI nnn | jpOff nnn =>
    obtain rfl : nnn = nnnOf w := by simpa [rowReadings] using hi
    exact ⟨rfl, packNNN_of_famOf (famOf_of_match h)⟩
  case seImm x nn | sneImm x nn | ldImm x nn | addImm x nn | rnd x nn =>
    obtain ⟨rfl, rfl⟩ : x = xOf w ∧ nn = nnOf w := by simpa [rowReadings] using hi
    exact ⟨rfl, packXNN_of_famOf (famOf_of_match h)⟩
  case drw x y n =>
    obtain ⟨rfl, rfl, rfl⟩ : x = xOf w ∧ y = yOf w ∧ n = (nOf w).toNat := by simpa [rowReadings] using hi
    exact encodes_drw (famOf_of_match h)
  case seReg x y | sneReg x y | ldReg x y | orReg x y | andReg x y | xorReg x y | addReg x y | sub x y | shr x y |
      subn x y | shl x y =>
    obtain ⟨rfl, rfl⟩ : x = xOf w ∧ y = yOf w := by simpa [rowReadings] using hi
    exact ⟨rfl, packXYN_of_match h⟩
  all_goals
    rename_i x
    obtain rfl : x = xOf w := by simpa [rowReadings] using hi
    exact ⟨rfl, packXNN_of_match h⟩

/-- A word that selects a row of the table decodes, to an instruction of that row. -/
theorem decodeWord_of_selects_row {w : Word} {p : OpcodeRow} (hp : p ∈ opcodeTable) (h : w &&& p.mask = p.value) :
    ∃ i, decodeWord w = .ok i ∧ i.row = p := by
  rw [← map_row_rowReadings w] at hp
  obtain ⟨i, hi, rfl⟩ := List.mem_map.mp hp
  obtain ⟨hwf, rfl⟩ := encodes_of_mem_rowReadings hi h
  exact ⟨i, decodeWord_encode hwf, rfl⟩

/-- Settles O4: a row that a word selects is the row of what the word decodes to, so no word selects two. -/
theorem decoderFollowsOpcodeTable : Obligations.DecoderFollowsOpcodeTable := by
  refine ⟨fun w i h => ⟨row_mem_opcodeTable i, selects_row_of_decodeWord h⟩, fun w => ⟨?_, ?_⟩, ?_⟩
  · rintro ⟨i, h⟩
    exact ⟨i.row, row_mem_opcodeTable i, selects_row_of_decodeWord h⟩
  · rintro ⟨p, hp, h⟩
    obtain ⟨i, hi, -⟩ := decodeWord_of_selects_row hp h
    exact ⟨i, hi⟩
  · intro w p q hp hq hwp hwq
    obtain ⟨i, hi, rfl⟩ := decodeWord_of_selects_row hp hwp
    obtain ⟨j, hj, rfl⟩ := decodeWord_of_selects_row hq hwq
    cases hi.symm.trans hj
    rfl

/-! Words written out -/

/-- Settles O1: the decoder run on the eleven words of the table and on one word of each illegal family. -/
theorem tableWordsDecode : Obligations.TableWordsDecode := by
  unfold Obligations.TableWordsDecode
  decide

end Sys2Proof

/-! An illegal word in the cycle (30_encoding.md R86, 60_exceptions.md R184). -/

namespace Sys2Proof.Machine

/-- Settles O11: a step is a cycle too, and on an illegal word no cycle looks at its byte. -/
theorem illegalWordAdvancesAndLatches : Obligations.IllegalWordAdvancesAndLatches := by
  intro rnd s w e hs hf hd
  have hcycle (b : Byte) := cycle_of_illegal b hs hf hd
  exact ⟨hcycle rnd, (hcycle (Config.freeRandom s.draws)).trans (hcycle rnd).symm⟩

end Sys2Proof.Machine

/-! The cycle (40_cycle_and_control_flow.md R100 to R102) and the control transfers (R106 to R114). -/

namespace Sys2Proof.Machine

/-! Where a cycle leaves `pc` -/

/-- Without a latched error the result of a cycle is Ok (60_exceptions.md R185). -/
theorem State.cycleStatus_of_healthy {s : State} (h : s.Healthy) : s.cycleStatus = .ok := by
  rw [State.cycleStatus, h]

/-- The access matrix gives `pc` to exactly the instructions whose pseudocode mentions it (10_state.md R24, table T-R36). -/
theorem mayWrite_pc (i : Instr) (s : State) : (mayWrite i s).pc = movesPc i := by
  cases i <;> rfl

/-- An instruction that fails leaves `pc` as step 2 advanced it (60_exceptions.md R184). -/
theorem exec_pc_of_error {i : Instr} {s t : State} (hs : s.Healthy) (h : exec i s = .next t)
    (ht : t.cycleStatus ≠ .ok) : t.pc = s.pc := by
  obtain ⟨k, e, -, rfl⟩ | ⟨-, herr⟩ := exec_next_cases h
  · rfl
  · exact absurd (State.cycleStatus_of_healthy (herr.trans hs)) ht

/-- Settles O12: an illegal word changes `pc` by the advance alone, and an instruction starts from the advanced `pc`. -/
theorem everyFetchedWordAdvances : Obligations.EveryFetchedWordAdvances := by
  intro rnd s w hs hf
  obtain ⟨t, ht⟩ := cycle_answers rnd s
  refine ⟨toNat_advance_pc (pc_le_of_fetchWord hf), t, ht, ?_⟩
  cases hd : decodeWord w with
  | error d =>
    cases ht.symm.trans (cycle_of_illegal rnd hs hf hd)
    exact ⟨fun _ => rfl, nofun⟩
  | ok i =>
    have hexec : exec i (s.advance.withRandom rnd) = .next t := (cycle_of_decode rnd hs hf hd).symm.trans ht
    have hhealthy : (s.advance.withRandom rnd).Healthy := hs
    refine ⟨exec_pc_of_error hhealthy hexec, fun j hj => ?_⟩
    cases hj
    exact ⟨hexec, fun hpc => (exec_frame hexec).pc ((mayWrite_pc i _).trans hpc)⟩

/-- Settles O10: a step is a cycle too, and a cycle that cannot fetch does not look at its byte. -/
theorem fetchPastTheEndFails : Obligations.FetchPastTheEndFails := by
  intro rnd s hs hpc
  have hcycle (b : Byte) := cycle_of_no_fetch b hs (fetchWord_eq_none.mpr hpc)
  exact ⟨hcycle rnd, (hcycle (Config.freeRandom s.draws)).trans (hcycle rnd).symm⟩

/-! Calls and returns -/

/-- The frame of a transfer through the stack. -/
theorem OnlyWrites.pc_stack (s : State) (a : Word) (st : List Word) :
    OnlyWrites { pc := true, stack := true } s { s with stack := st, pc := a } :=
  { OnlyWrites.rfl _ s with pc := nofun, stack := nofun }

/-- Settles O16: the two branches of the call. -/
theorem callPushesAdvancedPc : Obligations.CallPushesAdvancedPc := fun nnn s =>
  ⟨fun hroom => ⟨_, execCall_room nnn hroom, rfl, toNat_zextNNN nnn, OnlyWrites.pc_stack s _ _⟩,
    fun hfull => ⟨_, execCall_full nnn hfull, rfl, OnlyWrites.latch rfl s _⟩⟩

/-- Settles O17: the two branches of the return. -/
theorem returnPopsNewest : Obligations.ReturnPopsNewest := fun s =>
  ⟨fun _ _ hs => ⟨_, execRet_cons hs, rfl, rfl, OnlyWrites.pc_stack s _ _⟩,
    fun hs => ⟨_, execRet_nil hs, rfl, OnlyWrites.latch rfl s _⟩⟩

/-- Settles O18: the return pops the very address the call pushed, and neither touches anything else. -/
theorem returnUndoesCall : Obligations.ReturnUndoesCall := by
  intro nnn s t hroom h
  cases h.symm.trans (execCall_room nnn hroom)
  exact execRet_cons (s := { s with stack := s.pc :: s.stack, pc := zextNNN nnn + 2 }) rfl

/-! Jumps -/

/-- Settles O14: NNN zero-extended is NNN. -/
theorem jumpSetsPc : Obligations.JumpSetsPc := fun nnn s =>
  ⟨_, rfl, toNat_zextNNN nnn, OnlyWrites.jumpTo s _⟩

/-- The target of a jump with offset fits in 16 bits, so the sum is not reduced (40_cycle_and_control_flow.md R110). -/
theorem toNat_jumpOff (nnn : BitVec 12) (b : Byte) : (zextNNN nnn + zextByte b).toNat = nnn.toNat + b.toNat := by
  have := nnn.isLt
  have := b.isLt
  rw [BitVec.toNat_add, toNat_zextNNN, zextByte, BitVec.toNat_setWidth]
  omega

/-- With JUMP_REG = V0 the offset is V0 (40_cycle_and_control_flow.md R110). -/
theorem jumpOffset_v0 {s : State} (h : s.cfg.jumpReg = .v0) (nnn : BitVec 12) : jumpOffset nnn s = s.reg 0 := by
  rw [jumpOffset, h]

/-- With JUMP_REG = VX the offset is the register bits 11:8 of NNN name (40_cycle_and_control_flow.md R110). -/
theorem jumpOffset_vx {s : State} (h : s.cfg.jumpReg = .vx) {nnn : BitVec 12} {x : Reg} (hx : x.val = nnn.toNat / 256) :
    jumpOffset nnn s = s.reg x := by
  have hfield : (nnn.extractLsb' 8 4).toFin = x := by
    have := x.isLt
    rw [Fin.ext_iff, BitVec.val_toFin, BitVec.extractLsb'_toNat, Nat.shiftRight_eq_div_pow]
    omega
  rw [jumpOffset, h, hfield]

/-- Settles O15: the unreduced sum, with the offset of either setting. -/
theorem jumpWithOffsetAddsRegister : Obligations.JumpWithOffsetAddsRegister := by
  intro nnn s
  refine ⟨_, rfl, OnlyWrites.jumpTo s _, fun hcfg => ?_, fun hcfg x hx => ?_⟩
  · rw [State.jumpTo_pc, jumpOffset_v0 hcfg, toNat_jumpOff]
  · rw [State.jumpTo_pc, jumpOffset_vx hcfg hx, toNat_jumpOff]

/-! Skips -/

/-- A skip whose condition holds (40_cycle_and_control_flow.md R105). -/
theorem State.skipIf_pc_of {p : Prop} [Decidable p] (s : State) (hp : p) : (s.skipIf (decide p)).pc = s.pc + 2 := by
  rw [State.skipIf_pc, decide_eq_true hp, if_pos rfl]

/-- A skip whose condition fails (40_cycle_and_control_flow.md R105). -/
theorem State.skipIf_pc_of_not {p : Prop} [Decidable p] (s : State) (hp : ¬ p) : (s.skipIf (decide p)).pc = s.pc := by
  rw [State.skipIf_pc, decide_eq_false hp, if_neg Bool.false_ne_true]

/-- Settles O19: taken and not taken, of `=` and of `≠`. -/
theorem skipsCompareImmediate : Obligations.SkipsCompareImmediate := fun _ _ s =>
  ⟨⟨_, rfl, OnlyWrites.skipIf s _, s.skipIf_pc_of, s.skipIf_pc_of_not⟩,
    ⟨_, rfl, OnlyWrites.skipIf s _, fun heq => s.skipIf_pc_of_not (not_not_intro heq), s.skipIf_pc_of⟩⟩

/-- Settles O20: 5XY0 and 9XY0 do what 3XNN and 4XNN do with the value of VY for NN. -/
theorem skipsCompareRegisters : Obligations.SkipsCompareRegisters := fun x y s => skipsCompareImmediate x (s.reg y) s

end Sys2Proof.Machine

/-! The loads, arithmetic, logic, shifts and the random byte (41_alu.md R120 to R133). -/

namespace Sys2Proof.Machine

/-! What a meaning's destination and VF hold after it -/

/-- The destination of a meaning without a flag, VF among them (41_alu.md R122). -/
theorem State.reg_setReg_same (s : State) (x : Reg) (a : Byte) : (s.setReg x a).reg x = a := by
  rw [State.reg_setReg, if_pos rfl]

/-- The destination of a meaning with a flag holds the result, unless it is VF (41_alu.md R121). -/
theorem State.reg_setRegFlag_result {x : Reg} (hx : x ≠ VF) (s : State) (a f : Byte) : (s.setRegFlag x a f).reg x = a := by
  rw [State.reg_setRegFlag, if_neg hx, if_pos rfl]

/-- The flag is written last, so VF holds it whatever the destination (41_alu.md R121). -/
theorem State.reg_setRegFlag_flag (s : State) (x : Reg) (a f : Byte) : (s.setRegFlag x a f).reg VF = f := by
  rw [State.reg_setRegFlag, if_pos rfl]

/-! The flag computations -/

/-- The flag of a condition that holds (10_state.md R22). -/
theorem bit_of {p : Prop} [Decidable p] (hp : p) : bit (decide p) = 1 := by
  rw [decide_eq_true hp, bit, if_pos rfl]

/-- The flag of a condition that fails (10_state.md R22). -/
theorem bit_of_not {p : Prop} [Decidable p] (hp : ¬ p) : bit (decide p) = 0 := by
  rw [decide_eq_false hp, bit, if_neg Bool.false_ne_true]

/-- A flag read as a number (00_scope.md table T-R9). -/
theorem toNat_bit (b : Bool) : (bit b).toNat = b.toNat := by
  cases b <;> rfl

/-- The bit shifted out at the bottom is the remainder of the halving (41_alu.md R130). -/
theorem toNat_shiftOutLow (a : Byte) : (shiftOutLow a).toNat = a.toNat % 2 := by
  rw [shiftOutLow, toNat_bit, BitVec.getLsbD, Nat.toNat_testBit, Nat.pow_zero, Nat.div_one]

/-- The bit shifted out at the top is what the doubling carries beyond the byte (41_alu.md R132). -/
theorem toNat_shiftOutHigh (a : Byte) : (shiftOutHigh a).toNat = a.toNat / 128 := by
  have hlt : a.toNat / 128 < 2 := Nat.div_lt_of_lt_mul a.isLt
  rw [shiftOutHigh, toNat_bit, BitVec.getLsbD, Nat.toNat_testBit]
  exact Nat.mod_eq_of_lt hlt

/-! The results -/

/-- A difference of bytes is the difference of the integers mod 256 (41_alu.md R129, R131). -/
theorem toNat_sub_emod (a b : Byte) : ((a - b).toNat : Int) = (a.toNat - b.toNat : Int) % 256 := by
  have := b.isLt
  rw [BitVec.toNat_sub]
  omega

/-- One bit to the right halves the byte (41_alu.md R130). -/
theorem toNat_shiftRight_one (a : Byte) : (a >>> 1).toNat = a.toNat / 2 := by
  rw [BitVec.toNat_ushiftRight, Nat.shiftRight_one]

/-- One bit to the left doubles the byte mod 256 (41_alu.md R132). -/
theorem toNat_shiftLeft_one (a : Byte) : (a <<< 1).toNat = 2 * a.toNat % 256 := by
  rw [BitVec.toNat_shiftLeft, Nat.shiftLeft_eq, Nat.pow_one, Nat.mul_comm]

/-- The register SHIFT_SRC names is the one shifted (41_alu.md R130, R132; log 18). -/
theorem shiftOperand_eq {x y z : Reg} {s : State}
    (h : s.cfg.shiftSrc = .vx ∧ z = x ∨ s.cfg.shiftSrc = .vy ∧ z = y) : shiftOperand x y s = s.reg z := by
  obtain ⟨hcfg, rfl⟩ | ⟨hcfg, rfl⟩ := h <;> rw [shiftOperand, hcfg]

/-! Flagged arithmetic -/

/-- Settles O24: the result and the carry, the flag last. -/
theorem addRegistersSetsCarry : Obligations.AddRegistersSetsCarry := by
  intro x y s
  refine ⟨_, rfl, OnlyWrites.setRegFlag s _ _ _, fun hx => ?_, fun hcarry => ?_, fun hfits => ?_⟩
  · rw [State.reg_setRegFlag_result hx, BitVec.toNat_add]
  · rw [State.reg_setRegFlag_flag, carryFlag, bit_of hcarry]
  · rw [State.reg_setRegFlag_flag, carryFlag, bit_of_not (Nat.not_lt.mpr hfits)]

/-- What 8XY5 and 8XY7 do once minuend and subtrahend are read (41_alu.md R129, R131). -/
theorem setRegFlag_of_sub (s : State) (x : Reg) (a b : Byte) :
    ∃ t, Host.Outcome.next (φ := Fault) (ρ := Refusal) (s.setRegFlag x (a - b) (noBorrowFlag a b)) = .next t ∧
      OnlyWrites { regs := [x, VF] } s t ∧ (x ≠ VF → ((t.reg x).toNat : Int) = (a.toNat - b.toNat : Int) % 256) ∧
      (a.toNat ≥ b.toNat → t.reg VF = 1) ∧ (a.toNat < b.toNat → t.reg VF = 0) := by
  refine ⟨_, rfl, OnlyWrites.setRegFlag s _ _ _, fun hx => ?_, fun hge => ?_, fun hlt => ?_⟩
  · rw [State.reg_setRegFlag_result hx, toNat_sub_emod]
  · rw [State.reg_setRegFlag_flag, noBorrowFlag, bit_of hge]
  · rw [State.reg_setRegFlag_flag, noBorrowFlag, bit_of_not (Nat.not_le.mpr hlt)]

/-- Settles O25: 8XY7 is 8XY5 with minuend and subtrahend exchanged. -/
theorem subtractionsSetNoBorrow : Obligations.SubtractionsSetNoBorrow := fun x y s =>
  ⟨setRegFlag_of_sub s x (s.reg x) (s.reg y), setRegFlag_of_sub s x (s.reg y) (s.reg x)⟩

/-- Settles O26: both shifts are of Vz, under either setting of SHIFT_SRC. -/
theorem shiftsMoveOneBit : Obligations.ShiftsMoveOneBit := by
  intro x y z s hz
  have hsource : shiftOperand x y s = s.reg z := shiftOperand_eq hz
  constructor
  · refine ⟨_, rfl, OnlyWrites.setRegFlag s _ _ _, fun hx => ?_, ?_⟩
    · rw [State.reg_setRegFlag_result hx, hsource, toNat_shiftRight_one]
    · rw [State.reg_setRegFlag_flag, hsource, toNat_shiftOutLow]
  · refine ⟨_, rfl, OnlyWrites.setRegFlag s _ _ _, fun hx => ?_, ?_⟩
    · rw [State.reg_setRegFlag_result hx, hsource, toNat_shiftLeft_one]
    · rw [State.reg_setRegFlag_flag, hsource, toNat_shiftOutHigh]

/-! Meanings without a flag -/

/-- Settles O21: the write of the source. -/
theorem loadsCopyTheirSource : Obligations.LoadsCopyTheirSource := fun x _ _ s =>
  ⟨⟨_, rfl, s.reg_setReg_same x _, OnlyWrites.setReg s x _⟩, ⟨_, rfl, s.reg_setReg_same x _, OnlyWrites.setReg s x _⟩⟩

/-- Settles O22: a byte's addition is mod 256. -/
theorem addImmediateWrapsWithoutFlag : Obligations.AddImmediateWrapsWithoutFlag := by
  intro x nn s
  refine ⟨_, rfl, ?_, OnlyWrites.setReg s x _⟩
  rw [State.reg_setReg_same, BitVec.toNat_add]

/-- Settles O23: each operation on bytes is that on their bits. -/
theorem logicActsBitwise : Obligations.LogicActsBitwise := by
  intro x y s
  refine ⟨⟨_, rfl, OnlyWrites.setReg s x _, fun n => ?_⟩, ⟨_, rfl, OnlyWrites.setReg s x _, fun n => ?_⟩,
    ⟨_, rfl, OnlyWrites.setReg s x _, fun n => ?_⟩⟩
  · rw [State.reg_setReg_same, BitVec.getLsbD_or]
  · rw [State.reg_setReg_same, BitVec.getLsbD_and]
  · rw [State.reg_setReg_same, BitVec.getLsbD_xor]

/-- Settles O27: the byte is the one the cycle was given, whichever. -/
theorem randomByteIsMasked : Obligations.RandomByteIsMasked := by
  intro x nn s
  refine ⟨_, rfl, OnlyWrites.setReg s x _, fun n => ?_⟩
  rw [State.reg_setReg_same, BitVec.getLsbD_and]

end Sys2Proof.Machine

/-! The index register and the transfers between registers and memory (42_index_and_memory.md R140 to R146). -/

namespace Sys2Proof.Machine

/-! The index register -/

/-- The frame of a write of the index register. -/
theorem OnlyWrites.index {w : Writes} (hw : w.i = true) (s : State) (a : Word) : OnlyWrites w s { s with i := a } :=
  { OnlyWrites.rfl w s with i := fun h => absurd (hw.symm.trans h) (by decide) }

/-- A register added to the index register is added mod 65536 (42_index_and_memory.md R141). -/
theorem toNat_add_zextByte (a : Word) (b : Byte) : (a + zextByte b).toNat = (a.toNat + b.toNat) % 65536 := by
  have := b.isLt
  rw [BitVec.toNat_add, zextByte, BitVec.toNat_setWidth]
  omega

/-- The largest glyph address is 0x054B, so it is not reduced (42_index_and_memory.md R142). -/
theorem toNat_glyphAddress (v : Byte) : (glyphAddress v).toNat = 0x050 + 5 * v.toNat := by
  have := v.isLt
  rw [glyphAddress, BitVec.toNat_ofNat]
  simp only [fontBase, fontGlyphBytes]
  omega

/-- With I_OVF_FLAG off FX1E moves the index register alone (42_index_and_memory.md R141). -/
theorem execAddI_flag_off {s : State} (h : s.cfg.iOvfFlag = false) (x : Reg) :
    execAddI x s = .next { s with i := s.i + zextByte (s.reg x) } := by
  simp only [execAddI, h, Bool.false_eq_true, if_false]

/-- With I_OVF_FLAG on FX1E also writes the flag, after the read of VX (42_index_and_memory.md R141). -/
theorem execAddI_flag_on {s : State} (h : s.cfg.iOvfFlag = true) (x : Reg) :
    execAddI x s = .next ({ s with i := s.i + zextByte (s.reg x) }.setReg VF (indexOverflow s.i (s.reg x))) := by
  simp only [execAddI, h, if_true]

/-- Settles O29: NNN zero-extended is NNN. -/
theorem loadIndexTakesImmediate : Obligations.LoadIndexTakesImmediate := fun nnn s =>
  ⟨_, rfl, toNat_zextNNN nnn, OnlyWrites.index rfl s _⟩

/-- Settles O31: the address of a glyph fits in 16 bits for every value. -/
theorem glyphAddressIsUnmasked : Obligations.GlyphAddressIsUnmasked := fun x s =>
  ⟨_, rfl, toNat_glyphAddress (s.reg x), OnlyWrites.index rfl s _⟩

/-- Settles O30, under either setting of I_OVF_FLAG. -/
theorem addIndexWraps : Obligations.AddIndexWraps := by
  intro x s
  cases hcfg : s.cfg.iOvfFlag with
  | false => exact ⟨_, execAddI_flag_off hcfg x, toNat_add_zextByte s.i _, fun _ => OnlyWrites.index rfl s _, nofun⟩
  | true =>
    refine ⟨_, execAddI_flag_on hcfg x, toNat_add_zextByte s.i _, nofun, fun _ =>
      ⟨(OnlyWrites.index rfl s _).then_setReg (List.mem_singleton_self VF) _, fun hover => ?_, fun hfits => ?_⟩⟩
    · rw [State.reg_setReg_same, indexOverflow, bit_of hover]
    · rw [State.reg_setReg_same, indexOverflow, bit_of_not (Nat.not_lt.mpr hfits)]

/-! Stores -/

/-- The frame of a list of bytes stored over a range inside memory (42_index_and_memory.md R146). -/
theorem OnlyWrites.store {s : State} (hm : s.mem.wf = true) {a n : Nat} {bs : List Byte} (hlen : bs.length = n)
    (hin : a + bs.length ≤ 4096) :
    OnlyWrites { memAt := a, memLen := n } s { s with mem := s.mem.writeList a bs } :=
  { OnlyWrites.rfl _ s with
    memory := fun _ hc => Memory.read_writeList_outside hm hin (hlen.symm ▸ hc) }

/-- The digits of a byte, hundreds first, as numbers (42_index_and_memory.md R143). -/
theorem map_toNat_bcdDigits (v : Byte) :
    (bcdDigits v).map BitVec.toNat = [v.toNat / 100, v.toNat / 10 % 10, v.toNat % 10] := by
  have := v.isLt
  simp only [bcdDigits, List.map_cons, List.map_nil, BitVec.toNat_ofNat, List.cons.injEq, and_true]
  omega

/-- Where the digits of a byte are stored, `a + k` reads as the k-th of them (42_index_and_memory.md R143). -/
theorem toNat_read_writeList_bcdDigits {m : Memory} (hm : m.wf = true) {a : Nat} (ha : a + 3 ≤ 4096) (v : Byte) {k : Nat}
    (hk : k < 3) : [v.toNat / 100, v.toNat / 10 % 10, v.toNat % 10][k]? =
      some ((m.writeList a (bcdDigits v)).read (a + k)).toNat := by
  rw [← map_toNat_bcdDigits, List.getElem?_map, Memory.getElem?_eq_read_writeList hm ha hk, Option.map_some]

/-- Settles O32: the two branches of FX33, the stored bytes read back as the digits. -/
theorem decimalDigitsAreStored : Obligations.DecimalDigitsAreStored := by
  intro x s hm
  refine ⟨fun hin => ?_, fun hout => ⟨_, execLdB_out x hout, rfl, OnlyWrites.latch rfl s _⟩⟩
  have digit {k : Nat} (hk : k < 3) := toNat_read_writeList_bcdDigits hm hin (s.reg x) hk
  exact ⟨_, execLdB_in x hin, (Option.some.inj (digit (k := 0) (by decide))).symm,
    (Option.some.inj (digit (k := 1) (by decide))).symm, (Option.some.inj (digit (k := 2) (by decide))).symm,
    OnlyWrites.store hm rfl hin⟩

/-- Settles O33: the two branches of FX55. -/
theorem registerBlockIsStored : Obligations.RegisterBlockIsStored := by
  intro x s hm
  refine ⟨fun hin => ⟨_, execStRegs_in x hin, fun r hr => ?_, ?_⟩,
    fun hout => ⟨_, execStRegs_out x hout, rfl, OnlyWrites.latch rfl s _⟩⟩
  · exact read_writeList_regBlock hm hin hr s
  · have hlen := length_regBlock x s
    exact OnlyWrites.store hm hlen (by omega)

/-! Loads -/

/-- Settles O34: the two branches of FX65. -/
theorem registerBlockIsLoaded : Obligations.RegisterBlockIsLoaded := by
  intro x s
  refine ⟨fun hin => ⟨_, execLdRegs_in x hin, fun r hr => ?_, fun r hr => ?_, ?_⟩,
    fun hout => ⟨_, execLdRegs_out x hout, rfl, OnlyWrites.latch rfl s _⟩⟩
  · rw [reg_loadRegs_readList, if_pos hr]
  · rw [reg_loadRegs_readList, if_neg (not_le.mpr hr)]
  · exact OnlyWrites.load_block (fun r _ => List.mem_finRange r) s _

/-- Settles O35: the bytes FX65 loads are those FX55 stored. -/
theorem storeThenLoadRoundTrips : Obligations.StoreThenLoadRoundTrips := by
  intro x s t u w hm hin hstore hmem hi hload r hr
  cases hstore.symm.trans (execStRegs_in x hin)
  cases hload.symm.trans (execLdRegs_in x (hi ▸ hin))
  rw [reg_loadRegs_readList, if_pos hr, hmem, hi]
  exact read_writeList_regBlock hm hin hr s

end Sys2Proof.Machine

/-! The display unit: clear and draw, the instructions 00E0 and DXYN, and the read transactions (43_display.md R150 to R157,
60_exceptions.md R196). -/

namespace Sys2Proof.Machine

/-! Clear -/

/-- The frame of a write of the framebuffer and the redraw flag (43_display.md R151, R155). -/
theorem OnlyWrites.display {w : Writes} (hfb : w.fb = true) (hredraw : w.redraw = true) (s : State) (f : Frame) (b : Bool) :
    OnlyWrites w s { s with fb := f, redraw := b } :=
  { OnlyWrites.rfl w s with
    fb := fun h => absurd (hfb.symm.trans h) (by decide)
    redraw := fun h => absurd (hredraw.symm.trans h) (by decide) }

/-- Settles O37: every pixel of the blank frame is 0, and 00E0 writes nothing but the frame and the flag. -/
theorem clearBlanksDisplay : Obligations.ClearBlanksDisplay := fun s =>
  ⟨_, rfl, Frame.get_blank, rfl, OnlyWrites.display rfl rfl s _ _⟩

/-! What the loops of a draw have done -/

/-- The part of a draw of the sprite `rows` at (x, y) that leads from `d` to `d'` has visited exactly the offsets in `done`,
each of them once (43_display.md R152, R153). -/
structure DrawsAt (x y : Byte) (rows : List Byte) (done : Nat → Nat → Prop) (d d' : DrawState) : Prop where
  /-- a visited target is XORed with its sprite bit -/
  drawn     : ∀ r c, done r c → d'.fb.target x y r c = (d.fb.target x y r c ^^ spriteBit rows r c)
  /-- a pixel that is the target of no visited offset is kept -/
  kept      : ∀ tr tc, (∀ r c, done r c → ¬ (tr = targetRow y r ∧ tc = targetCol x c)) → d'.fb.get tr tc = d.fb.get tr tc
  /-- a collision is reported if one was, or if a visited set bit met a pixel that was lit -/
  collision : d'.collision = true ↔ d.collision = true ∨
    ∃ r c, done r c ∧ spriteBit rows r c = true ∧ d.fb.target x y r c = true

/-- A loop that runs no iteration draws at no offset. -/
theorem DrawsAt.refl {done : Nat → Nat → Prop} (h : ∀ r c, ¬ done r c) (x y : Byte) (rows : List Byte) (d : DrawState) :
    DrawsAt x y rows done d d where
  drawn r c hd := absurd hd (h r c)
  kept _ _ _ := rfl
  collision := ⟨.inl, fun hc => hc.resolve_right fun ⟨r, c, hd, _⟩ => h r c hd⟩

/-- The target of an offset not visited is kept, for no two offsets of a sprite share a target (43_display.md R153 (a)). -/
theorem DrawsAt.target_of_not_done {x y : Byte} {rows : List Byte} {done : Nat → Nat → Prop} {d d' : DrawState}
    (h : DrawsAt x y rows done d d') (hbound : ∀ r c, done r c → r < 32 ∧ c < 8) {r c : Nat} (hr : r < 32) (hc : c < 8)
    (hnot : ¬ done r c) : d'.fb.target x y r c = d.fb.target x y r c := by
  refine h.kept _ _ fun r' c' hdone ⟨hrow, hcol⟩ => hnot ?_
  obtain ⟨hr', hc'⟩ := hbound r' c' hdone
  cases targetRow_inj hr hr' hrow
  cases targetCol_inj (by omega) (by omega) hcol
  exact hdone

/-- Two parts of a draw, at offsets that have none in common, one after the other. -/
theorem DrawsAt.trans {x y : Byte} {rows : List Byte} {done₁ done₂ done : Nat → Nat → Prop} {d d' d'' : DrawState}
    (h₁ : DrawsAt x y rows done₁ d d') (h₂ : DrawsAt x y rows done₂ d' d'')
    (hdone : ∀ r c, done r c ↔ done₁ r c ∨ done₂ r c) (hbound : ∀ r c, done r c → r < 32 ∧ c < 8)
    (hdisj : ∀ r c, done₁ r c → ¬ done₂ r c) : DrawsAt x y rows done d d'' := by
  have hbound₁ r c (h : done₁ r c) := hbound r c ((hdone r c).mpr (.inl h))
  have hbound₂ r c (h : done₂ r c) := hbound r c ((hdone r c).mpr (.inr h))
  have hfirst r c (h : done₁ r c) : d''.fb.target x y r c = d'.fb.target x y r c :=
    h₂.target_of_not_done hbound₂ (hbound₁ r c h).1 (hbound₁ r c h).2 (hdisj r c h)
  have hsecond r c (h : done₂ r c) : d'.fb.target x y r c = d.fb.target x y r c :=
    h₁.target_of_not_done hbound₁ (hbound₂ r c h).1 (hbound₂ r c h).2 fun h' => hdisj r c h' h
  refine ⟨fun r c h => ?_, fun tr tc h => ?_, ?_⟩
  · obtain h | h := (hdone r c).mp h
    · rw [hfirst r c h, h₁.drawn r c h]
    · rw [h₂.drawn r c h, hsecond r c h]
  · rw [h₂.kept tr tc fun r c h' => h r c ((hdone r c).mpr (.inr h')),
      h₁.kept tr tc fun r c h' => h r c ((hdone r c).mpr (.inl h'))]
  · rw [h₂.collision, h₁.collision, or_assoc]
    refine or_congr_right ⟨?_, ?_⟩
    · rintro (⟨r, c, h, hmet⟩ | ⟨r, c, h, hbit, hlit⟩)
      · exact ⟨r, c, (hdone r c).mpr (.inl h), hmet⟩
      · exact ⟨r, c, (hdone r c).mpr (.inr h), hbit, hsecond r c h ▸ hlit⟩
    · rintro ⟨r, c, h, hbit, hlit⟩
      obtain h | h := (hdone r c).mp h
      · exact .inl ⟨r, c, h, hbit, hlit⟩
      · exact .inr ⟨r, c, h, hbit, (hsecond r c h).symm ▸ hlit⟩

/-- One iteration of the loops draws at one offset (43_display.md R152). -/
theorem drawsAt_drawPixel (x y : Byte) (rows : List Byte) (r c : Nat) (d : DrawState) :
    DrawsAt x y rows (fun r' c' => r' = r ∧ c' = c) d (drawPixel x y r (rows.getD r 0) d c) where
  drawn := by
    rintro _ _ ⟨rfl, rfl⟩
    rw [Frame.target, get_drawPixel, if_pos ⟨rfl, rfl⟩, Frame.target, spriteBit]
  kept tr tc h := by rw [get_drawPixel, if_neg (h r c ⟨rfl, rfl⟩)]
  collision := by
    rw [collision_drawPixel, Bool.or_eq_true, Bool.and_eq_true]
    refine or_congr_right ⟨fun hmet => ⟨r, c, ⟨rfl, rfl⟩, hmet⟩, ?_⟩
    rintro ⟨_, _, ⟨rfl, rfl⟩, hmet⟩
    exact hmet

/-- The inner loop up to column `n` draws at the offsets of one row up to column `n`. -/
theorem drawsAt_columns (x y : Byte) (rows : List Byte) {r : Nat} (hr : r < 32) (d : DrawState) {n : Nat} (hn : n ≤ 8) :
    DrawsAt x y rows (fun r' c => r' = r ∧ c < n) d ((List.range n).foldl (drawPixel x y r (rows.getD r 0)) d) := by
  induction n with
  | zero => exact DrawsAt.refl (fun _ _ h => absurd h.2 (Nat.not_lt_zero _)) x y rows d
  | succ n ih =>
    rw [List.range_succ, List.foldl_append]
    exact (ih (by omega)).trans (drawsAt_drawPixel x y rows r n _) (by omega) (by omega) (by omega)

/-- The outer loop from row `r` on draws at the offsets of the rows from `r` on. -/
theorem drawsAt_drawRows (x y : Byte) {rows : List Byte} (hlen : rows.length ≤ 32) (r : Nat) (d : DrawState) :
    DrawsAt x y rows (fun r' c => r ≤ r' ∧ r' < rows.length ∧ c < 8) d (drawRows x y r (rows.drop r) d) := by
  induction hrest : rows.drop r generalizing r d with
  | nil =>
    have hend := List.drop_eq_nil_iff.mp hrest
    exact DrawsAt.refl (by omega) x y rows d
  | cons b bs ih =>
    have hr : r < rows.length := by
      have := congrArg List.length hrest
      rw [List.length_drop, List.length_cons] at this
      omega
    rw [List.drop_eq_getElem_cons hr, List.cons.injEq, ← List.getD_eq_getElem rows 0 hr] at hrest
    obtain ⟨rfl, hbs⟩ := hrest
    exact (drawsAt_columns x y rows (by omega) d (Nat.le_refl 8)).trans (ih (r + 1) _ hbs) (by omega) (by omega) (by omega)

/-- Settles O38: a draw is the outer loop from row 0 on, with no collision seen. -/
theorem drawXorsEachTargetOnce : Obligations.DrawXorsEachTargetOnce := by
  intro x y rows f hlen
  have h : DrawsAt x y rows _ ⟨f, false⟩ (draw x y rows f) := drawsAt_drawRows x y (by omega) 0 _
  refine ⟨fun r c hr hc => h.drawn r c ⟨Nat.zero_le r, hr, hc⟩,
    fun tr tc hout => h.kept tr tc fun r c ⟨_, hr, hc⟩ => hout r c hr hc, ?_⟩
  simpa [and_assoc] using h.collision

/-- Settles O39: XOR with a bit is its own inverse, and the second draw meets the pixels as the first left them. -/
theorem drawTwiceRestores : Obligations.DrawTwiceRestores := by
  intro x y rows f hlen
  obtain ⟨hdrawn, hkept, -⟩ := drawXorsEachTargetOnce x y rows f hlen
  obtain ⟨hdrawn', hkept', hcollision⟩ := drawXorsEachTargetOnce x y rows (draw x y rows f).fb hlen
  refine ⟨Frame.ext_get fun tr tc => ?_, hcollision.trans ?_⟩
  · by_cases htarget : ∃ r c, r < rows.length ∧ c < 8 ∧ tr = targetRow y r ∧ tc = targetCol x c
    · obtain ⟨r, c, hr, hc, rfl, rfl⟩ := htarget
      refine (hdrawn' r c hr hc).trans ?_
      rw [hdrawn r c hr hc, Bool.xor_assoc, Bool.xor_self, Bool.xor_false, Frame.target]
    · have hout r c (hr : r < rows.length) (hc : c < 8) (hhit : tr = targetRow y r ∧ tc = targetCol x c) : False :=
        htarget ⟨r, c, hr, hc, hhit⟩
      rw [hkept' tr tc hout, hkept tr tc hout]
  · refine exists₂_congr fun r c => and_congr_right fun hr => and_congr_right fun hc => and_congr_right fun hbit => ?_
    rw [hdrawn r c hr hc, hbit, Bool.xor_true, Bool.not_eq_true']

/-! DXYN -/

/-- The sprite read from memory has the bits of the bytes there (43_display.md R152, R155). -/
theorem spriteBit_readList (m : Memory) (a : Nat) {n r : Nat} (hr : r < n) (c : Nat) :
    spriteBit (m.readList a n) r c = (m.read (a + r)).getLsbD (7 - c) := by
  rw [spriteBit, List.getD_eq_getElem?_getD, Memory.getElem?_readList m a n r hr, Option.getD_some]

/-- A flag is 1 exactly when its condition holds (10_state.md R22). -/
theorem bit_eq_one {b : Bool} : bit b = 1 ↔ b = true := by
  cases b <;> decide

/-- Settles O40: the sprite is the bytes at I, drawn once; the flag is the collision of that draw. -/
theorem drawInstructionDrawsSprite : Obligations.DrawInstructionDrawsSprite := by
  intro x y n s hn
  refine ⟨fun hin => ?_, fun hout => ⟨_, execDrw_out x y n hout, rfl, OnlyWrites.latch rfl s _⟩⟩
  have hlen := s.mem.length_readList s.i.toNat n
  obtain ⟨hdrawn, hkept, hcollision⟩ :=
    drawXorsEachTargetOnce (s.reg x) (s.reg y) (s.mem.readList s.i.toNat n) s.fb (by omega)
  rw [hlen] at hdrawn hkept hcollision
  refine ⟨_, execDrw_in x y n hin, (OnlyWrites.display rfl rfl s _ _).then_setReg (List.mem_singleton_self VF) _, rfl,
    fun r c hr hc => ?_, hkept, ?_⟩
  · rw [← spriteBit_readList s.mem s.i.toNat hr]
    exact hdrawn r c hr hc
  · rw [State.reg_setReg_same, collisionFlag]
    refine ⟨bit_eq_zero_or_one _, (bit_eq_one.trans hcollision).trans ?_⟩
    refine exists₂_congr fun r c => and_congr_right fun hr => ?_
    rw [spriteBit_readList s.mem s.i.toNat hr]

/-! The read transactions -/

/-- A snapshot has one element for each of the 32 · 64 pixels (43_display.md R156). -/
theorem Frame.length_snapshot (f : Frame) : f.snapshot.length = 2048 := by
  simp only [Frame.snapshot, List.length_flatMap, Vector.length_toList, List.map_const', List.sum_replicate, smul_eq_mul,
    Nat.reduceMul]

/-- Element `64 · r + c` of a snapshot is the pixel (r, c) (43_display.md R156). -/
theorem Frame.getElem?_snapshot (f : Frame) (r : Fin 32) (c : Fin 64) :
    f.snapshot[64 * r.val + c.val]? = some (f.get r c) := by
  rw [Frame.snapshot, getElem?_flatMap_rows _ _ _ c.isLt, Vector.getElem?_toList, Vector.getElem?_eq_getElem r.isLt]
  rfl

/-- Settles O41: the replies are the fields they name, and a transaction that only replies hands the state back. -/
theorem readTransactionsChangeNothing : Obligations.ReadTransactionsChangeNothing := fun s =>
  ⟨⟨s.fb.snapshot, rfl, s.fb.length_snapshot, s.fb.getElem?_snapshot⟩, rfl,
    ⟨debugSnapshot s, rfl, rfl, rfl, fun _ => rfl, rfl, rfl⟩,
    ⟨clearRedraw s, rfl, rfl, { OnlyWrites.rfl _ s with redraw := nofun }⟩⟩

end Sys2Proof.Machine

/-! The keypad and the timers: the key skips and FX0A, the moves between a register and a timer, and `set_key`
(44_keypad_and_timer_access.md R165 to R172). -/

namespace Sys2Proof.Machine

/-! The key skips -/

/-- A value of at most 15 names a key, and it is down when its bit is set (44_keypad_and_timer_access.md R166). -/
theorem keyDown_of_le {v : Byte} (hv : v.toNat ≤ 15) (k : Word) : keyDown k v = k.getLsbD v.toNat := by
  rw [keyDown, decide_eq_true hv, Bool.true_and, isPressed]

/-- A value above 15 names no key (44_keypad_and_timer_access.md R166, the spec's decision D8). -/
theorem keyDown_of_ge {v : Byte} (hv : 16 ≤ v.toNat) (k : Word) : keyDown k v = false := by
  rw [keyDown, decide_eq_false (by omega), Bool.false_and]

/-- A skip whose condition computes to true (40_cycle_and_control_flow.md R105). -/
theorem State.skipIf_pc_of_eq_true (s : State) {c : Bool} (hc : c = true) : (s.skipIf c).pc = s.pc + 2 := by
  rw [State.skipIf_pc, if_pos hc]

/-- A skip whose condition computes to false (40_cycle_and_control_flow.md R105). -/
theorem State.skipIf_pc_of_eq_false (s : State) {c : Bool} (hc : c = false) : (s.skipIf c).pc = s.pc := by
  rw [State.skipIf_pc, if_neg (ne_true_of_eq_false hc)]

/-- Settles O42: EXA1 skips on the negation of what EX9E skips on, the key of VX or none. -/
theorem skipsTestTheKeyOfVx : Obligations.SkipsTestTheKeyOfVx := by
  intro x s
  have named (hle : (s.reg x).toNat ≤ 15) {b : Bool} (hbit : s.k.getLsbD (s.reg x).toNat = b) :
      keyDown s.k (s.reg x) = b := (keyDown_of_le hle s.k).trans hbit
  have unnamed (hge : 16 ≤ (s.reg x).toNat) : keyDown s.k (s.reg x) = false := keyDown_of_ge hge s.k
  refine ⟨⟨_, rfl, OnlyWrites.skipIf s _, fun hle hdown => ?_, fun hle hup => ?_, fun hge => ?_⟩,
    ⟨_, rfl, OnlyWrites.skipIf s _, fun hle hdown => ?_, fun hle hup => ?_, fun hge => ?_⟩⟩
  · exact s.skipIf_pc_of_eq_true (named hle hdown)
  · exact s.skipIf_pc_of_eq_false (named hle hup)
  · exact s.skipIf_pc_of_eq_false (unnamed hge)
  · exact s.skipIf_pc_of_eq_false (congrArg not (named hle hdown))
  · exact s.skipIf_pc_of_eq_true (congrArg not (named hle hup))
  · exact s.skipIf_pc_of_eq_true (congrArg not (unnamed hge))

/-! The wait for a key -/

/-- Settles O43: the key found first is the smallest that is down, and an index below 16 fits in a byte. -/
theorem waitForKeyTakesLowest : Obligations.WaitForKeyTakesLowest := by
  intro x s
  refine ⟨fun hup => ⟨_, execLdVxK_none x (firstKeyPressed_eq_none.mpr hup), rfl, OnlyWrites.jumpTo s _⟩,
    fun hdown => ?_⟩
  obtain ⟨n, hfirst⟩ := Option.ne_none_iff_exists'.mp (mt firstKeyPressed_eq_none.mp hdown)
  obtain ⟨hn, hset, hbelow⟩ := firstKeyPressed_eq_some hfirst
  have hreg : ((s.setReg x (BitVec.ofNat 8 n)).reg x).toNat = n := by
    rw [State.reg_setReg_same, BitVec.toNat_ofNat]
    omega
  refine ⟨_, execLdVxK_some x hfirst, OnlyWrites.setReg s x _, ?_⟩
  rw [hreg]
  exact ⟨Nat.le_of_lt_succ hn, hset, hbelow⟩

/-! The timer moves -/

/-- Settles O46: each move is one write of the source. -/
theorem timerMovesCopy : Obligations.TimerMovesCopy := fun x s =>
  ⟨⟨_, rfl, s.reg_setReg_same x s.dt, OnlyWrites.setReg s x _⟩,
    ⟨_, rfl, rfl, { OnlyWrites.rfl _ s with dt := nofun }⟩,
    ⟨_, rfl, rfl, { OnlyWrites.rfl _ s with st := nofun }⟩⟩

/-! `set_key` -/

/-- Bit n of the mask after `set_key` (44_keypad_and_timer_access.md R165). -/
theorem getLsbD_setKeyBit (k : Word) (key : Fin 16) (p : Bool) (n : Nat) :
    (setKeyBit k key p).getLsbD n = if n = key.val then p else k.getLsbD n := by
  have hone : (1#16 <<< key.val).getLsbD n = decide (n = key.val) := by
    rw [← BitVec.twoPow_eq, BitVec.getLsbD_twoPow, decide_eq_true key.isLt, Bool.true_and, decide_eq_decide]
    exact eq_comm
  cases p with
  | true =>
    rw [setKeyBit, if_pos rfl, BitVec.getLsbD_or, hone]
    by_cases hn : n = key.val <;> simp [hn]
  | false =>
    rw [setKeyBit, if_neg Bool.false_ne_true, BitVec.getLsbD_and, BitVec.getLsbD_not, hone]
    by_cases hn : n = key.val
    · simp [hn]
    · simpa [hn] using BitVec.lt_of_getLsbD

/-- Settles O48: the bit of the key and the other fifteen, read after the write. -/
theorem setKeyWritesOneBit : Obligations.SetKeyWritesOneBit := fun key p s =>
  ⟨_, rfl, (getLsbD_setKeyBit s.k key p key.val).trans (if_pos rfl),
    fun n hn => (getLsbD_setKeyBit s.k key p n).trans (if_neg hn), rfl⟩

end Sys2Proof.Machine

/-! Errors, the latch, ticks and the end of a program (60_exceptions.md): which error a cycle ends with and what it
changes (R181, R182, R184, R186), the Faulted core (R185, R189), the timers' tick (R190), and the jump to itself (R198). -/

namespace Sys2Proof.Machine

/-! The Faulted core -/

/-- The result read from a latched error is its kind (60_exceptions.md R185). -/
theorem State.cycleStatus_of_err {s : State} {e : ErrRecord} (h : s.err = some e) : s.cycleStatus = .error e.kind := by
  rw [State.cycleStatus, h]

/-- Settles O13: the cycle is refused at step 0, whatever its random byte, and a step is a cycle. -/
theorem faultedCoreRefusesCycles : Obligations.FaultedCoreRefusesCycles := by
  intro rnd s e h
  refine ⟨?_, cycle_of_faulted (Config.freeRandom s.draws) h⟩
  simp only [transact, cycle_of_faulted rnd h, State.cycleStatus_of_err h]

/-- `t` has the latch of `s` and its processor: registers, I, `pc`, stack and framebuffer. -/
structure SameProcessor (s t : State) : Prop where
  err   : t.err = s.err
  v     : t.v = s.v
  i     : t.i = s.i
  pc    : t.pc = s.pc
  stack : t.stack = s.stack
  fb    : t.fb = s.fb

theorem SameProcessor.refl (s : State) : SameProcessor s s := ⟨rfl, rfl, rfl, rfl, rfl, rfl⟩

theorem SameProcessor.trans {s t u : State} (h : SameProcessor s t) (h' : SameProcessor t u) : SameProcessor s u where
  err := h'.err.trans h.err
  v := h'.v.trans h.v
  i := h'.i.trans h.i
  pc := h'.pc.trans h.pc
  stack := h'.stack.trans h.stack
  fb := h'.fb.trans h.fb

/-- `load_program` leaves the processor alone, whether or not the program fits (20_memory.md R60). -/
theorem sameProcessor_loadProgram (bytes : List Byte) (s : State) : SameProcessor s (loadProgram bytes s).1 := by
  rcases Nat.lt_or_ge 3584 bytes.length with h | h
  · rw [loadProgram_of_gt h]
    exact SameProcessor.refl s
  · rw [loadProgram_of_le h]
    exact ⟨rfl, rfl, rfl, rfl, rfl, rfl⟩

/-- On a Faulted core every transaction but the reset answers and leaves the processor alone (60_exceptions.md R185). -/
theorem transact_of_faulted {s : State} {e : ErrRecord} (hs : s.err = some e) {tr : Transaction}
    (hreset : ∀ cfg font, tr ≠ .reset cfg font) :
    ∃ t reply, transact tr s = .next (t, reply) ∧ SameProcessor s t := by
  cases tr with
  | reset cfg font => exact absurd rfl (hreset cfg font)
  | loadProgram bytes => exact ⟨_, _, rfl, sameProcessor_loadProgram bytes s⟩
  | cycle rnd => exact ⟨_, _, (faultedCoreRefusesCycles rnd s e hs).1, SameProcessor.refl s⟩
  | setKey | tick | clearRedraw => exact ⟨_, _, rfl, rfl, rfl, rfl, rfl, rfl, rfl⟩
  | getDisplay | getRedraw | debugSnapshot => exact ⟨_, _, rfl, SameProcessor.refl s⟩

/-- A run without a reset from a Faulted core ends, with the processor as it was (60_exceptions.md R185, R189). -/
theorem runTransactions_of_faulted {ts : List Transaction} {s : State} {e : ErrRecord} (hs : s.err = some e)
    (hreset : ∀ cfg font, .reset cfg font ∉ ts) : ∃ t, runTransactions ts s = .next t ∧ SameProcessor s t := by
  induction ts generalizing s with
  | nil => exact ⟨s, rfl, SameProcessor.refl s⟩
  | cons tr ts ih =>
    have hhead : ∀ cfg font, tr ≠ .reset cfg font := fun cfg font h => hreset cfg font (h ▸ List.mem_cons_self)
    obtain ⟨u, reply, hu, hsu⟩ := transact_of_faulted hs hhead
    obtain ⟨t, ht, hut⟩ := ih (hsu.err.trans hs) fun cfg font h => hreset cfg font (List.mem_cons_of_mem tr h)
    exact ⟨t, by simp only [runTransactions, hu, ht], hsu.trans hut⟩

/-- Settles O57: each item is among those a run without a reset leaves alone. -/
theorem onlyResetLeavesFaulted : Obligations.OnlyResetLeavesFaulted := by
  intro ts s e hs hreset
  obtain ⟨t, ht, hst⟩ := runTransactions_of_faulted hs hreset
  exact ⟨t, ht, hst.err.trans hs, hst.v, hst.i, hst.pc, hst.stack, hst.fb⟩

/-! Which error an instruction raises -/

/-- The error of an instruction depends on the depth of the stack, I and the capacity alone (60_exceptions.md R182). -/
theorem execError_congr (i : Instr) {s t : State} (hdepth : t.stack.length = s.stack.length) (hi : t.i = s.i)
    (hcap : t.cfg.stackCapacity = s.cfg.stackCapacity) : execError i t = execError i s := by
  cases i
  case ret => simp only [execError, hdepth]
  case call => simp only [execError, hdepth, hcap]
  case ldB | stRegs | ldRegs | drw => simp only [execError, hi]
  all_goals rfl

/-- An error answers with its kind for a result (60_exceptions.md R185). -/
theorem failsWith_cycleStatus (e : ErrRecord) (s : State) :
    ∃ t, failsWith e s = .next t ∧ t.cycleStatus = statusOf (some e.kind) :=
  ⟨_, rfl, State.cycleStatus_of_err rfl⟩

/-- On a core that is not Faulted an instruction answers, and its result is the error R181 lists for it, or Ok. -/
theorem exec_cycleStatus (i : Instr) {s : State} (hs : s.Healthy) :
    ∃ t, exec i s = .next t ∧ t.cycleStatus = statusOf (execError i s) := by
  obtain ⟨k, range, hk, he⟩ | ⟨t, hn, he, herr⟩ := exec_cases i s
  · rw [he, hk]
    exact failsWith_cycleStatus _ s
  · rw [hn]
    exact ⟨t, he, State.cycleStatus_of_healthy (herr.trans hs)⟩

/-! Which error a cycle raises: R186's order, over the fetch and the decoder -/

theorem cycleError_of_faulted {s : State} {e : ErrRecord} (hs : s.err = some e) : cycleError s = some e.kind := by
  simp only [cycleError, hs]

theorem cycleError_of_no_fetch {s : State} (hs : s.Healthy) (hf : fetchWord s = none) :
    cycleError s = some .outOfBounds := by
  have hpc : s.pc.toNat + 2 > 4096 := by have := fetchWord_eq_none.mp hf; omega
  simp only [cycleError, show s.err = none from hs, if_pos hpc]

/-- A fetch that answers read the two bytes at `pc` (20_memory.md R53). -/
theorem wordOf_of_fetchWord {s : State} {w : Word} (hf : fetchWord s = some w) :
    wordOf (s.mem.read s.pc.toNat) (s.mem.read (s.pc.toNat + 1)) = w :=
  Option.some.inj ((fetchWord_of_le (pc_le_of_fetchWord hf)).symm.trans hf)

theorem cycleError_of_illegal {s : State} {w : Word} {d : DecodeError} (hs : s.Healthy) (hf : fetchWord s = some w)
    (hd : decodeWord w = .error d) : cycleError s = some .illegalInstruction := by
  have hpc : ¬ s.pc.toNat + 2 > 4096 := by have := pc_le_of_fetchWord hf; omega
  simp only [cycleError, show s.err = none from hs, if_neg hpc, wordOf_of_fetchWord hf, hd]

theorem cycleError_of_decode {s : State} {w : Word} {i : Instr} (hs : s.Healthy) (hf : fetchWord s = some w)
    (hd : decodeWord w = .ok i) : cycleError s = execError i s := by
  have hpc : ¬ s.pc.toNat + 2 > 4096 := by have := pc_le_of_fetchWord hf; omega
  simp only [cycleError, show s.err = none from hs, if_neg hpc, wordOf_of_fetchWord hf, hd]

/-- Every cycle answers, and its result is the first error in the order of R186, or Ok. -/
theorem cycle_cycleStatus (rnd : Byte) (s : State) :
    ∃ t, cycle rnd s = .next t ∧ t.cycleStatus = statusOf (cycleError s) := by
  cases hs : s.err with
  | some e =>
    rw [cycleError_of_faulted hs]
    exact ⟨s, cycle_of_faulted rnd hs, State.cycleStatus_of_err hs⟩
  | none =>
    cases hf : fetchWord s with
    | none =>
      rw [cycle_of_no_fetch rnd hs hf, cycleError_of_no_fetch hs hf]
      exact failsWith_cycleStatus _ s
    | some w =>
      cases hd : decodeWord w with
      | error d =>
        rw [cycle_of_illegal rnd hs hf hd, cycleError_of_illegal hs hf hd]
        exact failsWith_cycleStatus _ s.advance
      | ok i =>
        have hentry : (s.advance.withRandom rnd).Healthy := hs
        have herror : execError i (s.advance.withRandom rnd) = execError i s := execError_congr i rfl rfl rfl
        rw [cycle_of_decode rnd hs hf hd, cycleError_of_decode hs hf hd, ← herror]
        exact exec_cycleStatus i hentry

/-- Settles O51: the errors of the instructions, and those of the cycle built on them. -/
theorem errorsAreExactlyThoseListed : Obligations.ErrorsAreExactlyThoseListed :=
  ⟨fun i _ hs => exec_cycleStatus i hs, cycle_cycleStatus⟩

/-- States that agree on the inputs of R182 have the same error ahead. -/
theorem SameErrorInputs.cycleError_eq {s t : State} (h : SameErrorInputs s t) : cycleError t = cycleError s := by
  cases hs : s.err with
  | some e => rw [cycleError_of_faulted hs, cycleError_of_faulted (h.err.trans hs)]
  | none =>
    have ht : t.Healthy := h.err.trans hs
    cases hf : fetchWord s with
    | none => rw [cycleError_of_no_fetch hs hf, cycleError_of_no_fetch ht (h.word.trans hf)]
    | some w =>
      cases hd : decodeWord w with
      | error d => rw [cycleError_of_illegal hs hf hd, cycleError_of_illegal ht (h.word.trans hf) hd]
      | ok i =>
        rw [cycleError_of_decode hs hf hd, cycleError_of_decode ht (h.word.trans hf) hd]
        exact execError_congr i h.depth h.i h.capacity

/-- Settles O53: the result of a cycle is its error, and the error is that of the inputs. -/
theorem errorsDependOnFewInputs : Obligations.ErrorsDependOnFewInputs := by
  intro rnd rnd' s t s' t' h hs' ht'
  obtain ⟨u, hu, hus⟩ := cycle_cycleStatus rnd s
  obtain ⟨v, hv, hvt⟩ := cycle_cycleStatus rnd' t
  cases hu.symm.trans hs'
  cases hv.symm.trans ht'
  rw [hus, hvt, h.cycleError_eq]

/-! What a failing cycle changes -/

/-- An instruction that ends with the latch set has set it, to its own address and word, and has changed nothing else
(60_exceptions.md R184). -/
theorem exec_precise {i : Instr} {s t : State} {e : ErrRecord} (hs : s.Healthy) (h : exec i s = .next t)
    (he : t.err = some e) : e.atPc = s.pc - 2 ∧ e.word = some (encode i) ∧ t = { s with err := some e } := by
  obtain ⟨k, range, -, hfail⟩ | ⟨u, -, hu, herr⟩ := exec_cases i s
  · cases h.symm.trans hfail
    cases he
    exact ⟨rfl, rfl, rfl⟩
  · cases h.symm.trans hu
    cases he.symm.trans (herr.trans hs)

/-- Settles O52: a failed fetch, an illegal word, or an instruction that fails on the state the advance left. -/
theorem errorsArePrecise : Obligations.ErrorsArePrecise := by
  intro rnd s t e hs h he
  cases hf : fetchWord s with
  | none =>
    cases h.symm.trans (cycle_of_no_fetch rnd hs hf)
    cases he
    exact ⟨rfl, rfl, fun _ => rfl, fun hne => absurd rfl hne⟩
  | some w =>
    cases hd : decodeWord w with
    | error d =>
      cases h.symm.trans (cycle_of_illegal rnd hs hf hd)
      cases he
      exact ⟨rfl, rfl, nofun, fun _ => rfl⟩
    | ok i =>
      have hentry : (s.advance.withRandom rnd).Healthy := hs
      obtain ⟨hat, hword, rfl⟩ := exec_precise hentry ((cycle_of_decode rnd hs hf hd).symm.trans h) he
      have hencode : encode i = w := (encodes_of_decodeWord hd).2
      exact ⟨hat.trans (advance_pc_sub s.pc), hencode ▸ hword, nofun, fun _ => rfl⟩

/-! The tick -/

/-- A timer counted down is one less, and 0 stays 0 (60_exceptions.md R190). -/
theorem toNat_countDown (t : Byte) : (countDown t).toNat = t.toNat - 1 := by
  unfold countDown
  split
  case isTrue h => rw [h]; rfl
  case isFalse h => bv_omega

/-- The sound is on while the sound timer is above 0 (60_exceptions.md R190). -/
theorem soundActive_eq (s : State) : soundActive s = decide (0 < s.st.toNat) := by
  rw [soundActive, decide_eq_decide]
  bv_omega

/-- The sound timer after `m` ticks. -/
theorem toNat_st_iterate_tick (s : State) (m : Nat) : ((fun u => (tick u).1)^[m] s).st.toNat = s.st.toNat - m := by
  induction m with
  | zero => rfl
  | succ m ih => rw [Function.iterate_succ_apply', tick, toNat_countDown, ih, Nat.sub_sub]

/-- Settles O47: one tick from any state, and the sound timer after `m` of them. -/
theorem tickCountsBothTimersDown : Obligations.TickCountsBothTimersDown := by
  refine ⟨fun s => ⟨_, _, rfl, toNat_countDown s.dt, toNat_countDown s.st, ?_, ?_⟩, fun s m => ?_⟩
  · rw [tick, soundActive_eq, decide_eq_true_iff]
  · exact { OnlyWrites.rfl _ s with dt := nofun, st := nofun }
  · rw [tick, soundActive_eq, toNat_st_iterate_tick, decide_eq_decide]
    exact Nat.sub_pos_iff_lt

/-! The end of a program -/

/-- Settles O45: the jump puts `pc` back where it was before the advance, and no item the end of a program depends on
has moved. -/
theorem endedProgramChangesNothing : Obligations.EndedProgramChangesNothing := by
  rintro rnd s ⟨hs, nnn, hfetch, hpc⟩
  refine ⟨?_, hs, nnn, hfetch, hpc⟩
  calc cycle rnd s
      = exec (.jp nnn) (s.advance.withRandom rnd) := cycle_of_decode rnd hs hfetch (decodeWord_encode rfl)
    _ = .next { s.advance.withRandom rnd with pc := nnn.setWidth 16 } := rfl
    _ = .next { s with rnd := rnd, draws := s.draws + 1 } := by rw [← hpc]; rfl

end Sys2Proof.Machine
